-- ==== Sys2Proof/Word.lean ====
section
/-!
DEFINITION. The word types of the machine (00_scope.md section 5, rules R10, R12, R13, R51): all values
are unsigned bit vectors, and every narrowing wraps (rule R5), as `BitVec` arithmetic does.
-/

namespace Sys2Proof

/-- An 8-bit value: a general register, a timer, a memory byte (rules R10, R16, R18). -/
abbrev Byte := BitVec 8

/-- A 16-bit value: `I`, `PC`, a return address, an instruction word (rules R12, R13, R15, R50). -/
abbrev Word := BitVec 16

/-- A 4-bit field of an instruction word (rule R51). -/
abbrev Nibble := BitVec 4

/-- A register number, the `x` or `y` field: all sixteen values are legal (rule R53). -/
abbrev Reg := BitVec 4

/-- A 12-bit address immediate, the `nnn` field (rule R51). -/
abbrev Addr12 := BitVec 12

/-- Every register number selects one of the sixteen registers. -/
theorem Reg.toNat_lt (x : Reg) : x.toNat < 16 := x.isLt

end Sys2Proof
end

