-- ==== Sys2Proof/Syntax.lean ====
section
/-!
DEFINITION. The abstract syntax: one constructor per row of spec/opcode_table.json (30_encoding.md rule R55),
in the table's order, with the fields of rule R51. A field that has exactly the width of its bits is a bit
vector of that width; the sprite height `n`, "an unsigned count 0..15" (rule R53), is a natural number whose
bound `Instr.wellFormed` checks.
-/

namespace Sys2Proof

/-- The 34 instructions (rule R55). -/
inductive Instr where
  /-- `00E0`, `CLS` (rule R117). -/
  | cls
  /-- `00EE`, `RET` (rule R73). -/
  | ret
  /-- `1NNN`, `JP nnn` (rule R71). -/
  | jp (nnn : Addr12)
  /-- `2NNN`, `CALL nnn` (rule R72). -/
  | call (nnn : Addr12)
  /-- `3XNN`, `SE Vx, nn` (rule R74). -/
  | seByte (x : Reg) (nn : Byte)
  /-- `4XNN`, `SNE Vx, nn` (rule R75). -/
  | sneByte (x : Reg) (nn : Byte)
  /-- `5XY0`, `SE Vx, Vy` (rule R76). -/
  | seReg (x y : Reg)
  /-- `6XNN`, `LD Vx, nn` (rule R81). -/
  | ldByte (x : Reg) (nn : Byte)
  /-- `7XNN`, `ADD Vx, nn` (rule R82). -/
  | addByte (x : Reg) (nn : Byte)
  /-- `8XY0`, `LD Vx, Vy` (rule R83). -/
  | ldReg (x y : Reg)
  /-- `8XY1`, `OR Vx, Vy` (rule R84). -/
  | orReg (x y : Reg)
  /-- `8XY2`, `AND Vx, Vy` (rule R85). -/
  | andReg (x y : Reg)
  /-- `8XY3`, `XOR Vx, Vy` (rule R86). -/
  | xorReg (x y : Reg)
  /-- `8XY4`, `ADD Vx, Vy` (rule R87). -/
  | addReg (x y : Reg)
  /-- `8XY5`, `SUB Vx, Vy` (rule R88). -/
  | sub (x y : Reg)
  /-- `8XY6`, `SHR Vx` (rule R89); `y` matters only under `SHIFT_SOURCE_VY`. -/
  | shr (x y : Reg)
  /-- `8XY7`, `SUBN Vx, Vy` (rule R90). -/
  | subn (x y : Reg)
  /-- `8XYE`, `SHL Vx` (rule R91); `y` matters only under `SHIFT_SOURCE_VY`. -/
  | shl (x y : Reg)
  /-- `9XY0`, `SNE Vx, Vy` (rule R77). -/
  | sneReg (x y : Reg)
  /-- `ANNN`, `LD I, nnn` (rule R95). -/
  | ldI (nnn : Addr12)
  /-- `BNNN`, `JP V0, nnn` (rule R78). -/
  | jpV0 (nnn : Addr12)
  /-- `CXNN`, `RND Vx, nn` (rule R105). -/
  | rnd (x : Reg) (nn : Byte)
  /-- `DXYN`, `DRW Vx, Vy, n` (rule R118). -/
  | drw (x y : Reg) (n : Nat)
  /-- `EX9E`, `SKP Vx` (rule R111). -/
  | skp (x : Reg)
  /-- `EXA1`, `SKNP Vx` (rule R112). -/
  | sknp (x : Reg)
  /-- `FX07`, `LD Vx, DT` (rule R107). -/
  | ldVxDt (x : Reg)
  /-- `FX0A`, `LD Vx, K` (rule R113). -/
  | ldVxK (x : Reg)
  /-- `FX15`, `LD DT, Vx` (rule R108). -/
  | ldDtVx (x : Reg)
  /-- `FX18`, `LD ST, Vx` (rule R109). -/
  | ldStVx (x : Reg)
  /-- `FX1E`, `ADD I, Vx` (rule R96). -/
  | addI (x : Reg)
  /-- `FX29`, `LD F, Vx` (rule R97). -/
  | ldF (x : Reg)
  /-- `FX33`, `LD B, Vx` (rule R98). -/
  | ldB (x : Reg)
  /-- `FX55`, `LD [I], Vx` (rule R99). -/
  | storeRegs (x : Reg)
  /-- `FX65`, `LD Vx, [I]` (rule R100). -/
  | loadRegs (x : Reg)
  deriving DecidableEq, Repr

end Sys2Proof
end

