-- ==== Sys2Proof/Config.lean ====
section
/-!
DEFINITION. What an implementation fixes (00_scope.md rule R4) and the free values of the random input
(43_random.md rule R106) and of a stack entry that does not exist (10_state.md rules R14, R15). The parameters that rule R4 leaves open are a record, so that one model serves
every legal setting of them; the ones it fixes are constants.
-/

namespace Sys2Proof

/-- The open parameters of rule R4. Every state carries one value of this record and no event changes it
(notes/assumptions/1.md). The defaults of rule R4 are `Params.default` in Machine/Defaults.lean, the legal
settings `Params.legal` in WellFormed.lean. -/
structure Params where
  /-- `MEM_SIZE`, the number of bytes of `MEM` (rules R4, R18). -/
  memSize : Nat
  /-- `SHIFT_SOURCE_VY`: the two shifts read `V[y]` instead of `V[x]` (rules R89, R91). -/
  shiftSourceVy : Bool
  /-- `FONT_ENABLE`: `Reset` places the glyph bytes (rule R37). -/
  fontEnable : Bool
  /-- `FONT_BASE`, the address of glyph 0 (rule R37). -/
  fontBase : Nat
  /-- `FONT_STRIDE`, the bytes per glyph (rule R37). -/
  fontStride : Nat
  /-- `FONT`, the glyph bytes in ascending address order (rule R37). -/
  font : List Byte
  deriving DecidableEq, Repr, Inhabited

namespace Config

/-- `LOAD_BASE`: where a program image starts and where `PC` resets to (rule R4, fixed). -/
abbrev loadBase : Nat := 0x200

/-- FREE VALUE (notes/assumptions/2.md). The random byte the environment presents with the `n`-th `Step`:
rule R106 calls it "a free 8-bit input of each step, under no law", so nothing constrains it here. -/
opaque rnd : Nat → Byte

/-- FREE VALUE (notes/assumptions/3.md). What a pop takes as `STACK[j]` at a number `j` above 15: rule R15 gives the
stack no such entry, and rule R14 lets no `SP` reach one, so nothing constrains it here. -/
opaque noEntry : Byte → Word

end Config

end Sys2Proof
end

