-- ==== Sys2Proof/WellFormed.lean ====
section
/-!
DEFINITION. Which terms stand for something the hardware has: the instructions that have an encoding
(30_encoding.md rules R51, R53) and the parameter settings the spec calls legal (00_scope.md rule R4).
-/

namespace Sys2Proof

/-- An instruction that has a word. Only the sprite height can be out of its field, `0..15` (rule R53);
every other field has the width of its bits. -/
def Instr.wellFormed : Instr → Bool
  | .cls => true
  | .ret => true
  | .jp _ => true
  | .call _ => true
  | .seByte _ _ => true
  | .sneByte _ _ => true
  | .seReg _ _ => true
  | .ldByte _ _ => true
  | .addByte _ _ => true
  | .ldReg _ _ => true
  | .orReg _ _ => true
  | .andReg _ _ => true
  | .xorReg _ _ => true
  | .addReg _ _ => true
  | .sub _ _ => true
  | .shr _ _ => true
  | .subn _ _ => true
  | .shl _ _ => true
  | .sneReg _ _ => true
  | .ldI _ => true
  | .jpV0 _ => true
  | .rnd _ _ => true
  | .drw _ _ n => decide (n ≤ 15)
  | .skp _ => true
  | .sknp _ => true
  | .ldVxDt _ => true
  | .ldVxK _ => true
  | .ldDtVx _ => true
  | .ldStVx _ => true
  | .addI _ => true
  | .ldF _ => true
  | .ldB _ => true
  | .storeRegs _ => true
  | .loadRegs _ => true

/-- `Instr.wellFormed` as a proposition. -/
abbrev Instr.WellFormed (i : Instr) : Prop := i.wellFormed = true

/-- The legal settings of the open parameters: `0x202 <= MEM_SIZE <= 65536` (rule R4), and sixteen glyphs of
`FONT_STRIDE` bytes inside the reserved low region `0x000..0x1FF` (rules R36, R37; notes/assumptions/1.md). -/
def Params.legal (p : Params) : Bool :=
  decide (0x202 ≤ p.memSize) && decide (p.memSize ≤ 65536) &&
  decide (p.font.length = 16 * p.fontStride) && decide (p.fontBase + p.font.length ≤ 0x200)

/-- `Params.legal` as a proposition. -/
abbrev Params.Legal (p : Params) : Prop := p.legal = true

end Sys2Proof
end

