-- ==== Sys2Proof/Decode.lean ====
section
/-!
DEFINITION. Decoding and encoding (30_encoding.md). `decodeWord` is rule R55's `Decode`, exact on every fixed
bit (rule R56); `decode` reads the big-endian bytes (rule R50); `encodeWord` builds a word from the six formats
of rule R52; `opcodeTable` is the mask and match table of rule R55, against which the decoder is stated.
-/

namespace Sys2Proof

/-! ### Fields of an instruction word (rule R51) -/

/-- `fam`, `op[15:12]`, the leading nibble. -/
def opFam (op : Word) : Nibble := op.extractLsb' 12 4

/-- `x`, `op[11:8]`. -/
def opX (op : Word) : Reg := op.extractLsb' 8 4

/-- `y`, `op[7:4]`. -/
def opY (op : Word) : Reg := op.extractLsb' 4 4

/-- `n`, `op[3:0]`. -/
def opN (op : Word) : Nibble := op.extractLsb' 0 4

/-- `nn`, `op[7:0]`. -/
def opNN (op : Word) : Byte := op.extractLsb' 0 8

/-- `nnn`, `op[11:0]`. -/
def opNNN (op : Word) : Addr12 := op.extractLsb' 0 12

/-! ### The decoder (rules R55, R56) -/

/-- Why no instruction is decoded. Both are safe: the step that meets one stops with a fault. -/
inductive DecodeError where
  /-- The word matches no row of rule R55 (rule R56): the step raises `InvalidOpcode`. -/
  | invalidOpcode
  /-- Fewer than two bytes are left: an instruction is exactly 16 bits long (rule R50). -/
  | truncated
  deriving DecidableEq, Repr

/-- Family 0: two words, told apart by all the lower bits (rules R55, R56). -/
def decodeFam0 (nnn : Addr12) : Except DecodeError Instr :=
  match nnn.toNat with
  | 0x0E0 => .ok .cls
  | 0x0EE => .ok .ret
  | _ => .error .invalidOpcode

/-- Family 8: the low nibble is the sub-opcode (rule R55). -/
def decodeFam8 (x y : Reg) (n : Nibble) : Except DecodeError Instr :=
  match n.toNat with
  | 0x0 => .ok (.ldReg x y)
  | 0x1 => .ok (.orReg x y)
  | 0x2 => .ok (.andReg x y)
  | 0x3 => .ok (.xorReg x y)
  | 0x4 => .ok (.addReg x y)
  | 0x5 => .ok (.sub x y)
  | 0x6 => .ok (.shr x y)
  | 0x7 => .ok (.subn x y)
  | 0xE => .ok (.shl x y)
  | _ => .error .invalidOpcode

/-- Family E: the low byte is the function code (rule R55). -/
def decodeFamE (x : Reg) (nn : Byte) : Except DecodeError Instr :=
  match nn.toNat with
  | 0x9E => .ok (.skp x)
  | 0xA1 => .ok (.sknp x)
  | _ => .error .invalidOpcode

/-- Family F: the low byte is the function code (rule R55). -/
def decodeFamF (x : Reg) (nn : Byte) : Except DecodeError Instr :=
  match nn.toNat with
  | 0x07 => .ok (.ldVxDt x)
  | 0x0A => .ok (.ldVxK x)
  | 0x15 => .ok (.ldDtVx x)
  | 0x18 => .ok (.ldStVx x)
  | 0x1E => .ok (.addI x)
  | 0x29 => .ok (.ldF x)
  | 0x33 => .ok (.ldB x)
  | 0x55 => .ok (.storeRegs x)
  | 0x65 => .ok (.loadRegs x)
  | _ => .error .invalidOpcode

/-- `Decode(op)` (rule R55): the leading nibble selects the family, and every other fixed bit is tested. -/
def decodeWord (op : Word) : Except DecodeError Instr :=
  match (opFam op).toNat with
  | 0x0 => decodeFam0 (opNNN op)
  | 0x1 => .ok (.jp (opNNN op))
  | 0x2 => .ok (.call (opNNN op))
  | 0x3 => .ok (.seByte (opX op) (opNN op))
  | 0x4 => .ok (.sneByte (opX op) (opNN op))
  | 0x5 => if opN op = 0 then .ok (.seReg (opX op) (opY op)) else .error .invalidOpcode
  | 0x6 => .ok (.ldByte (opX op) (opNN op))
  | 0x7 => .ok (.addByte (opX op) (opNN op))
  | 0x8 => decodeFam8 (opX op) (opY op) (opN op)
  | 0x9 => if opN op = 0 then .ok (.sneReg (opX op) (opY op)) else .error .invalidOpcode
  | 0xA => .ok (.ldI (opNNN op))
  | 0xB => .ok (.jpV0 (opNNN op))
  | 0xC => .ok (.rnd (opX op) (opNN op))
  | 0xD => .ok (.drw (opX op) (opY op) (opN op).toNat)
  | 0xE => decodeFamE (opX op) (opNN op)
  | 0xF => decodeFamF (opX op) (opNN op)
  | _ => .error .invalidOpcode

/-! ### Bytes and words (rules R33, R50) -/

/-- The big-endian word of two bytes: the byte at the lower address is the more significant (rule R33). -/
def wordOfBytes (hi lo : Byte) : Word := hi ++ lo

/-- The two bytes of a word, the more significant first (rule R50). -/
def bytesOfWord (w : Word) : List Byte := [w.extractLsb' 8 8, w.extractLsb' 0 8]

/-- Decoding of any bytes: the first instruction and the bytes after it, or the reason there is none. -/
def decode : List Byte → Except DecodeError (Instr × List Byte)
  | hi :: lo :: rest =>
    match decodeWord (wordOfBytes hi lo) with
    | .ok i => .ok (i, rest)
    | .error e => .error e
  | _ => .error .truncated

/-! ### The encoder, from the formats of rule R52 -/

/-- Format `A`: family and 12-bit address. -/
def fmtA (fam : Nibble) (nnn : Addr12) : Word := fam ++ nnn

/-- Format `XB`: family, register, byte; format `XF` is the same with a fixed function code. -/
def fmtXB (fam : Nibble) (x : Reg) (nn : Byte) : Word := fam ++ x ++ nn

/-- Format `XYN`: family, two registers, nibble; format `XY` is the same with a fixed sub-opcode. -/
def fmtXYN (fam : Nibble) (x y : Reg) (n : Nibble) : Word := fam ++ x ++ y ++ n

/-- The word of an instruction (rules R52, R55); of an ill-formed `DRW`, the word of its height modulo 16. -/
def encodeWord : Instr → Word
  | .cls => 0x00E0
  | .ret => 0x00EE
  | .jp nnn => fmtA 0x1 nnn
  | .call nnn => fmtA 0x2 nnn
  | .seByte x nn => fmtXB 0x3 x nn
  | .sneByte x nn => fmtXB 0x4 x nn
  | .seReg x y => fmtXYN 0x5 x y 0x0
  | .ldByte x nn => fmtXB 0x6 x nn
  | .addByte x nn => fmtXB 0x7 x nn
  | .ldReg x y => fmtXYN 0x8 x y 0x0
  | .orReg x y => fmtXYN 0x8 x y 0x1
  | .andReg x y => fmtXYN 0x8 x y 0x2
  | .xorReg x y => fmtXYN 0x8 x y 0x3
  | .addReg x y => fmtXYN 0x8 x y 0x4
  | .sub x y => fmtXYN 0x8 x y 0x5
  | .shr x y => fmtXYN 0x8 x y 0x6
  | .subn x y => fmtXYN 0x8 x y 0x7
  | .shl x y => fmtXYN 0x8 x y 0xE
  | .sneReg x y => fmtXYN 0x9 x y 0x0
  | .ldI nnn => fmtA 0xA nnn
  | .jpV0 nnn => fmtA 0xB nnn
  | .rnd x nn => fmtXB 0xC x nn
  | .drw x y n => fmtXYN 0xD x y (BitVec.ofNat 4 n)
  | .skp x => fmtXB 0xE x 0x9E
  | .sknp x => fmtXB 0xE x 0xA1
  | .ldVxDt x => fmtXB 0xF x 0x07
  | .ldVxK x => fmtXB 0xF x 0x0A
  | .ldDtVx x => fmtXB 0xF x 0x15
  | .ldStVx x => fmtXB 0xF x 0x18
  | .addI x => fmtXB 0xF x 0x1E
  | .ldF x => fmtXB 0xF x 0x29
  | .ldB x => fmtXB 0xF x 0x33
  | .storeRegs x => fmtXB 0xF x 0x55
  | .loadRegs x => fmtXB 0xF x 0x65

/-- The bytes of an instruction as they lie in memory, big-endian (rule R50). -/
def encode (i : Instr) : List Byte := bytesOfWord (encodeWord i)

/-! ### The opcode map as a table (rule R55) -/

/-- One row of rule R55's table: a word belongs to it when `op & mask = pattern`. -/
structure OpcodeRow where
  /-- The row's mnemonic, as spec/opcode_table.json spells it. -/
  mnemonic : String
  /-- The column `mask`. -/
  mask : Word
  /-- The column `match`. -/
  pattern : Word
  deriving DecidableEq, Repr

/-- `op & mask = match` (rule R55). -/
def OpcodeRow.matches (r : OpcodeRow) (op : Word) : Bool := op &&& r.mask == r.pattern

/-- The row of an instruction. -/
def Instr.row : Instr → OpcodeRow
  | .cls => ⟨"CLS", 0xFFFF, 0x00E0⟩
  | .ret => ⟨"RET", 0xFFFF, 0x00EE⟩
  | .jp _ => ⟨"JP_nnn", 0xF000, 0x1000⟩
  | .call _ => ⟨"CALL_nnn", 0xF000, 0x2000⟩
  | .seByte _ _ => ⟨"SE_Vx__nn", 0xF000, 0x3000⟩
  | .sneByte _ _ => ⟨"SNE_Vx__nn", 0xF000, 0x4000⟩
  | .seReg _ _ => ⟨"SE_Vx__Vy", 0xF00F, 0x5000⟩
  | .ldByte _ _ => ⟨"LD_Vx__nn", 0xF000, 0x6000⟩
  | .addByte _ _ => ⟨"ADD_Vx__nn", 0xF000, 0x7000⟩
  | .ldReg _ _ => ⟨"LD_Vx__Vy", 0xF00F, 0x8000⟩
  | .orReg _ _ => ⟨"OR_Vx__Vy", 0xF00F, 0x8001⟩
  | .andReg _ _ => ⟨"AND_Vx__Vy", 0xF00F, 0x8002⟩
  | .xorReg _ _ => ⟨"XOR_Vx__Vy", 0xF00F, 0x8003⟩
  | .addReg _ _ => ⟨"ADD_Vx__Vy", 0xF00F, 0x8004⟩
  | .sub _ _ => ⟨"SUB_Vx__Vy", 0xF00F, 0x8005⟩
  | .shr _ _ => ⟨"SHR_Vx", 0xF00F, 0x8006⟩
  | .subn _ _ => ⟨"SUBN_Vx__Vy", 0xF00F, 0x8007⟩
  | .shl _ _ => ⟨"SHL_Vx", 0xF00F, 0x800E⟩
  | .sneReg _ _ => ⟨"SNE_Vx__Vy", 0xF00F, 0x9000⟩
  | .ldI _ => ⟨"LD_I__nnn", 0xF000, 0xA000⟩
  | .jpV0 _ => ⟨"JP_V0__nnn", 0xF000, 0xB000⟩
  | .rnd _ _ => ⟨"RND_Vx__nn", 0xF000, 0xC000⟩
  | .drw _ _ _ => ⟨"DRW_Vx__Vy__n", 0xF000, 0xD000⟩
  | .skp _ => ⟨"SKP_Vx", 0xF0FF, 0xE09E⟩
  | .sknp _ => ⟨"SKNP_Vx", 0xF0FF, 0xE0A1⟩
  | .ldVxDt _ => ⟨"LD_Vx__DT", 0xF0FF, 0xF007⟩
  | .ldVxK _ => ⟨"LD_Vx__K", 0xF0FF, 0xF00A⟩
  | .ldDtVx _ => ⟨"LD_DT__Vx", 0xF0FF, 0xF015⟩
  | .ldStVx _ => ⟨"LD_ST__Vx", 0xF0FF, 0xF018⟩
  | .addI _ => ⟨"ADD_I__Vx", 0xF0FF, 0xF01E⟩
  | .ldF _ => ⟨"LD_F__Vx", 0xF0FF, 0xF029⟩
  | .ldB _ => ⟨"LD_B__Vx", 0xF0FF, 0xF033⟩
  | .storeRegs _ => ⟨"LD__I___Vx", 0xF0FF, 0xF055⟩
  | .loadRegs _ => ⟨"LD_Vx___I", 0xF0FF, 0xF065⟩

/-- Rule R55's table, in its order: one instruction of each constructor stands for its row. -/
def opcodeTable : List OpcodeRow :=
  [Instr.cls, .ret, .jp 0, .call 0, .seByte 0 0, .sneByte 0 0, .seReg 0 0, .ldByte 0 0, .addByte 0 0].map
      Instr.row ++
  [Instr.ldReg 0 0, .orReg 0 0, .andReg 0 0, .xorReg 0 0, .addReg 0 0, .sub 0 0, .shr 0 0, .subn 0 0,
    .shl 0 0].map Instr.row ++
  [Instr.sneReg 0 0, .ldI 0, .jpV0 0, .rnd 0 0, .drw 0 0 0, .skp 0, .sknp 0].map Instr.row ++
  [Instr.ldVxDt 0, .ldVxK 0, .ldDtVx 0, .ldStVx 0, .addI 0, .ldF 0, .ldB 0, .storeRegs 0, .loadRegs 0].map
      Instr.row

/-! ### The table's own numbering of an instruction's bits -/

/-- The instruction the decoder reads from the word whose bits are `w`, of which the table gives the low
`nbits`; every bit above them is 0. The word is laid out as memory holds it and given to `decode`. -/
def decodeTableWord (nbits w : Nat) : Option Instr :=
  match decode (bytesOfWord (BitVec.ofNat 16 (w % 2 ^ nbits))) with
  | .ok (i, _) => some i
  | .error _ => none

end Sys2Proof
end

