-- ==== Sys2Proof/Machine/Flags.lean ====
section
/-!
DEFINITION. The results that come with a flag (41_register_ops.md rules R87 to R92): each answers the 8-bit result
and the flag bit that rule R80 writes to VF last. All operands are unsigned and every result wraps (rule R5).
-/

namespace Sys2Proof.Machine

/-- A flag as VF holds it: 0x01 or 0x00, never another value (rule R11). -/
def flagByte (f : Bool) : Byte := if f then 1 else 0

/-- Sum and carry: the flag is set when the true sum exceeds 255 (rule R87). -/
def addCarry (a b : Byte) : Byte × Bool := (a + b, decide (255 < a.toNat + b.toNat))

/-- Difference and NOT borrow: the flag is set when the minuend is at least the subtrahend (rules R88, R90). -/
def subNoBorrow (a b : Byte) : Byte × Bool := (a - b, decide (b.toNat ≤ a.toNat))

/-- Logical shift right by one, and the bit shifted out, bit 0 (rule R89). -/
def shrOut (s : Byte) : Byte × Bool := (s >>> 1, s.getLsbD 0)

/-- Logical shift left by one, and the bit shifted out, bit 7 (rule R91). -/
def shlOut (s : Byte) : Byte × Bool := (s <<< 1, s.getLsbD 7)

end Sys2Proof.Machine
end

