-- ==== Sys2Proof/Machine/Defaults.lean ====
section
/-!
DEFINITION. The default parameters (00_scope.md rule R4), the font table (20_memory.md rule R37) and what a byte
of memory holds after `Reset` (10_state.md rule R24), which is what an unlisted address of `Memory` reads as.
-/

namespace Sys2Proof

/-- The sixteen default glyphs, five rows each, glyph `0` first (rule R37's table). -/
def defaultFont : List Byte :=
  [0xF0, 0x90, 0x90, 0x90, 0xF0] ++ [0x20, 0x60, 0x20, 0x20, 0x70] ++
  [0xF0, 0x10, 0xF0, 0x80, 0xF0] ++ [0xF0, 0x10, 0xF0, 0x10, 0xF0] ++
  [0x90, 0x90, 0xF0, 0x10, 0x10] ++ [0xF0, 0x80, 0xF0, 0x10, 0xF0] ++
  [0xF0, 0x80, 0xF0, 0x90, 0xF0] ++ [0xF0, 0x10, 0x20, 0x40, 0x40] ++
  [0xF0, 0x90, 0xF0, 0x90, 0xF0] ++ [0xF0, 0x90, 0xF0, 0x10, 0xF0] ++
  [0xF0, 0x90, 0xF0, 0x90, 0x90] ++ [0xE0, 0x90, 0xE0, 0x90, 0xE0] ++
  [0xF0, 0x80, 0x80, 0x80, 0xF0] ++ [0xE0, 0x90, 0x90, 0x90, 0xE0] ++
  [0xF0, 0x80, 0xF0, 0x80, 0xF0] ++ [0xF0, 0x80, 0xF0, 0x80, 0x80]

/-- The default of every open parameter (rule R4). -/
def Params.default : Params where
  memSize := 4096
  shiftSourceVy := false
  fontEnable := true
  fontBase := 0x000
  fontStride := 5
  font := defaultFont

/-- What `Reset` puts at address `a`: the font byte inside the font region when `FONT_ENABLE`, else zero
(rules R24, R37). -/
def Params.resetByte (p : Params) (a : Nat) : Byte :=
  if p.fontEnable && decide (p.fontBase ≤ a) then p.font.getD (a - p.fontBase) 0 else 0

end Sys2Proof
end

