-- ==== Sys2Proof/Machine/Memory.lean ====
section
/-!
DEFINITION. The byte store (10_state.md rule R18, 20_memory.md rule R32) as a list of the cells that differ from
what `Reset` put there, addresses strictly rising. The range check of rule R31 is not made here: it is in
Machine/Ops.lean, on the address as a natural number.
-/

namespace Sys2Proof.Machine

/-- The cells whose byte differs from `Params.resetByte`, in ascending address order. -/
abbrev Memory := List Host.Cell

/-- The listed byte at an address, if there is one. -/
def Memory.lookup : Memory → Nat → Option Byte
  | [], _ => none
  | (k, c) :: m, a => if k = a then some c else Memory.lookup m a

/-- `MEM[a]`: the listed byte, else the byte `Reset` put there (rule R24). -/
def Memory.read (p : Params) (m : Memory) (a : Nat) : Byte :=
  (m.lookup a).getD (p.resetByte a)

/-- List `b` at `a`, keeping the addresses rising. -/
def Memory.insert : Memory → Nat → Byte → Memory
  | [], a, b => [(a, b)]
  | (k, c) :: m, a, b =>
    if a < k then (a, b) :: (k, c) :: m
    else if k = a then (a, b) :: m
    else (k, c) :: Memory.insert m a b

/-- Unlist address `a`. -/
def Memory.erase : Memory → Nat → Memory
  | [], _ => []
  | (k, c) :: m, a => if k = a then Memory.erase m a else (k, c) :: Memory.erase m a

/-- `MEM[a] <- b` (rule R32): that one byte changes. Writing what an unlisted address reads as unlists it. -/
def Memory.write (p : Params) (m : Memory) (a : Nat) (b : Byte) : Memory :=
  if b = p.resetByte a then m.erase a else m.insert a b

/-- Bytes written at ascending addresses from `a` (rule R35). -/
def Memory.writeBytes (p : Params) : Memory → Nat → List Byte → Memory
  | m, _, [] => m
  | m, a, b :: bs => Memory.writeBytes p (m.write p a b) (a + 1) bs

/-- `n` bytes read at ascending addresses from `a` (rule R35). -/
def Memory.readBytes (p : Params) (m : Memory) : Nat → Nat → List Byte
  | _, 0 => []
  | a, n + 1 => m.read p a :: Memory.readBytes p m (a + 1) n

/-- Every listed address is at least `lo`, and the addresses rise strictly. -/
def Memory.rising : Nat → Memory → Bool
  | _, [] => true
  | lo, (k, _) :: m => decide (lo ≤ k) && Memory.rising (k + 1) m

/-- No cell holds what its address would read as unlisted. -/
def Memory.minimal (p : Params) (m : Memory) : Bool := m.all fun c => decide (c.2 ≠ p.resetByte c.1)

/-- Every listed address is valid (rule R31). -/
def Memory.inRange (p : Params) (m : Memory) : Bool := m.all fun c => decide (c.1 < p.memSize)

/-- The canonical form: rising, minimal, and inside `MEM`. Equal memories are equal lists. -/
def Memory.wf (p : Params) (m : Memory) : Bool := m.rising 0 && m.minimal p && m.inRange p

end Sys2Proof.Machine
end

