-- ==== Sys2Proof/Machine/State.lean ====
section
/-!
DEFINITION. The state of the machine (10_state.md), the faults (60_exceptions.md rule R121), the refusals, and the
state after `Reset` (rules R24, R146). Plain data: no field is a function.
-/

namespace Sys2Proof.Machine

/-- The five fault kinds (rule R121), in the order of their codes. A fault is terminal and carries only its kind
(rule R129). -/
inductive Fault where
  /-- Code 1. Raised by the fetch, `DRW`, `LD B`, `LD [I]` and `LD Vx,[I]` when an address at or above `MEM_SIZE`
  would be accessed (rule R122). Safe: the machine stops, as the spec says. -/
  | addressFault
  /-- Code 2. Raised by `CALL` when the stack holds 16 return addresses (rule R123). Safe. -/
  | stackOverflow
  /-- Code 3. Raised by `RET` when the stack is empty (rule R124). Safe. -/
  | stackUnderflow
  /-- Code 4. Raised by a step whose fetched word matches no row of the opcode map (rule R125). Safe. -/
  | invalidOpcode
  /-- Code 5. Raised by the `Load` event only, when the image does not fit (rule R126). Safe. -/
  | romTooLarge
  deriving DecidableEq, Repr, Inhabited

/-- The 3-bit code of a fault kind (rule R22). -/
def Fault.code : Fault → BitVec 3
  | .addressFault => 1
  | .stackOverflow => 2
  | .stackUnderflow => 3
  | .invalidOpcode => 4
  | .romTooLarge => 5

/-- Why a step has no meaning. -/
inductive Refusal where
  /-- Raised by `exec` for an instruction that has no meaning yet; no arm of this model uses it. Safe. -/
  | notModelled (mnemonic : String)
  deriving DecidableEq, Repr

/-- `FB`, 32 rows of 64 pixels: `fb[y][x]` is the pixel at column `x`, row `y` (rule R19). -/
abbrev Framebuffer := Vector (Vector Bool 64) 32

/-- Everything the machine holds (rules R10 to R22), and the model's own `params`, `rnd` and `draws`. -/
structure State where
  /-- `V[0]`..`V[15]` (rules R10, R11). -/
  v : Vector Byte 16
  /-- `I`, the index register (rule R12). -/
  i : Word
  /-- `PC` (rule R13). -/
  pc : Word
  /-- `SP`, 8 bits wide (rule R4): the number of return addresses on the stack, which `State.spOk` in Safety.lean says
  is at most 16 (rule R14; notes/assumptions/3.md). -/
  sp : Byte
  /-- `STACK[0]`..`STACK[15]` (rule R15). -/
  stack : Vector Word 16
  /-- `DT`, the delay timer (rule R16). -/
  dt : Byte
  /-- `ST`, the sound timer (rule R17). -/
  st : Byte
  /-- `MEM` (rule R18), as the cells that differ from its reset contents. -/
  mem : Memory
  /-- `FB` (rule R19). -/
  fb : Framebuffer
  /-- `KEYS[0]`..`KEYS[15]`, `true` is pressed (rule R20). -/
  keys : Vector Bool 16
  /-- `WAIT`, the awaiting-key flag (rule R21). -/
  wait : Bool
  /-- `WAITX`, the register that will receive the key (rule R21). -/
  waitX : Reg
  /-- `FAULT_KIND` (rule R22): `none` is code 0. -/
  faultKind : Option Fault
  /-- The parameters of rule R4, constant (notes/assumptions/1.md). The model's own field. -/
  params : Params
  /-- The random input of the `Step` being executed (rules R105, R106; notes/assumptions/2.md). The model's own field. -/
  rnd : Byte
  /-- How many random inputs have been drawn (notes/assumptions/2.md). The model's own field. -/
  draws : Nat
  deriving DecidableEq, Repr, Inhabited

/-- The state after `Reset` under the parameters `p` (rules R24, R146); `rnd` and `draws`, which the spec does
not have as state, start at the values notes/assumptions/2.md names. -/
def State.resetWith (p : Params) : State where
  v := Vector.replicate 16 0
  i := 0
  pc := 0x200
  sp := 0
  stack := Vector.replicate 16 0
  dt := 0
  st := 0
  mem := []
  fb := Vector.replicate 32 (Vector.replicate 64 false)
  keys := Vector.replicate 16 false
  wait := false
  waitX := 0
  faultKind := none
  params := p
  rnd := 0
  draws := 0

/-- The state after `Reset` under the default parameters (rules R4, R24, R146). -/
def State.reset : State := State.resetWith Params.default

end Sys2Proof.Machine
end

