-- ==== Sys2Proof/Machine/Ops.lean ====
section
/-!
DEFINITION. The named operations over the state: registers, program counter, stack, timers, framebuffer, keys,
the memory primitives with their one fault (20_memory.md rules R31 to R33, R45), and taking a fault
(60_exceptions.md rule R129). Meanings are written with these.
-/

/-- FREE VALUE (notes/assumptions/4.md). What the engine holds after a fault of the given kind in the given state:
rule R129 leaves "the value of every piece of state other than `FAULT_KIND`" unspecified, so nothing
constrains it. -/
opaque Sys2Proof.Config.afterFault : Sys2Proof.Machine.Fault → Sys2Proof.Machine.State → Sys2Proof.Machine.State

namespace Sys2Proof.Machine

/-- What executing an instruction answers. -/
abbrev Result := Host.Outcome State Fault Refusal

/-! ### Taking a fault (rule R129) -/

/-- `raise k`: the event ends, nothing after it happens, and the fault is terminal and carries only its kind. -/
def raise (k : Fault) : Result := .fault k

/-- Fault entry as the host sees it (rules R22, R129): `FAULT_KIND` holds the kind, and every other piece of the
machine's state is unspecified. The parameters and the count of random draws, which are not the machine's state
(rule R23), stay. There is no return from a fault but `Reset` (rule R130). -/
def State.latchFault (s : State) (k : Fault) : State :=
  { Config.afterFault k s with faultKind := some k, params := s.params, draws := s.draws }

/-- A state or a fault, as the outcome of an instruction. -/
def finish : Except Fault State → Result
  | .ok s => .next s
  | .error k => raise k

/-! ### One update per piece of state -/

/-- All general registers replaced. -/
def State.withV (s : State) (v : Vector Byte 16) : State := { s with v := v }

/-- `I <- w` (rule R12): no check is made here. -/
def State.withI (s : State) (w : Word) : State := { s with i := w }

/-- `PC <- w` (rule R13): no check is made here (rule R70). -/
def State.withPc (s : State) (w : Word) : State := { s with pc := w }

/-- `SP` and `STACK` replaced (rules R14, R15). -/
def State.withStack (s : State) (sp : Byte) (stack : Vector Word 16) : State := { s with sp := sp, stack := stack }

/-- `DT <- b` (rule R16). -/
def State.withDt (s : State) (b : Byte) : State := { s with dt := b }

/-- `ST <- b` (rule R17). -/
def State.withSt (s : State) (b : Byte) : State := { s with st := b }

/-- `MEM` replaced (rule R18). -/
def State.withMem (s : State) (m : Memory) : State := { s with mem := m }

/-- `FB` replaced (rule R19). -/
def State.withFb (s : State) (fb : Framebuffer) : State := { s with fb := fb }

/-- `KEYS` replaced (rule R20). -/
def State.withKeys (s : State) (keys : Vector Bool 16) : State := { s with keys := keys }

/-- `WAIT` and `WAITX` replaced (rule R21). -/
def State.withWait (s : State) (w : Bool) (x : Reg) : State := { s with wait := w, waitX := x }

/-- The random input of the step (rule R106). -/
def State.withRnd (s : State) (r : Byte) : State := { s with rnd := r }

/-- One more draw from the free stream of random inputs (notes/assumptions/2.md). -/
def State.nextDraw (s : State) : State := { s with draws := s.draws + 1 }

/-! ### General registers (rules R10, R11, R80) -/

/-- `V[x]`. -/
def State.getV (s : State) (x : Reg) : Byte := s.v[x.toNat]'(Reg.toNat_lt x)

/-- `V[x] <- b`. -/
def State.setV (s : State) (x : Reg) (b : Byte) : State := s.withV (s.v.set x.toNat b (Reg.toNat_lt x))

/-- A result and its flag: the result is written to `V[x]`, then, last, the flag to `V[15]` (rule R80). -/
def State.setVFlag (s : State) (x : Reg) (r : Byte × Bool) : State := (s.setV x r.1).setV 0xF (flagByte r.2)

/-- `V[0]`..`V[x]`, lowest number first (rule R99). -/
def State.regsTo (s : State) (x : Reg) : List Byte := s.v.toList.take (x.toNat + 1)

/-- `V[k] <- bs[0]`, `V[k+1] <- bs[1]`, and so on, ascending (rule R100). -/
def setRegsFrom : Vector Byte 16 → Nat → List Byte → Vector Byte 16
  | v, _, [] => v
  | v, k, b :: bs => setRegsFrom (v.setIfInBounds k b) (k + 1) bs

/-! ### Program counter (rules R13, R54, R70) -/

/-- `PC <- (PC + 2) mod 65536`: the increment of the step cycle, and a taken skip once more. -/
def State.advancePc (s : State) : State := s.withPc (s.pc + 2)

/-- `PC <- (PC - 2) mod 65536`: the key wait undoes the increment (rule R113). -/
def State.retreatPc (s : State) : State := s.withPc (s.pc - 2)

/-- `if c then PC <- (PC + 2) mod 65536` (rule R70, "skip"). -/
def State.skipIf (s : State) (c : Bool) : State := if c then s.advancePc else s

/-! ### Return-address stack (rules R14, R15, R72, R73) -/

/-- Push a return address, or overflow when the stack already holds 16; the check comes before any write (rules R72,
R123; for a depth above 16, notes/assumptions/3.md). -/
def State.push (s : State) (w : Word) : Except Fault State :=
  if h : s.sp.toNat < 16 then .ok (s.withStack (s.sp + 1) (s.stack.set s.sp.toNat w h))
  else .error .stackOverflow

/-- `STACK[j]`; above 15 there is no entry, and the value is free (rule R15; notes/assumptions/3.md). -/
def State.stackAt (s : State) (j : Byte) : Word :=
  if h : j.toNat < 16 then s.stack[j.toNat] else Config.noEntry j

/-- Pop into `PC`; the popped entry keeps its value (rules R15, R73, R124). -/
def State.popPc (s : State) : Except Fault State :=
  if s.sp = 0 then .error .stackUnderflow
  else .ok ((s.withStack (s.sp - 1) s.stack).withPc (s.stackAt (s.sp - 1)))

/-! ### Memory (rules R31 to R33, R35, R45) -/

/-- `MEM[a]`, without the range check. -/
def State.peek (s : State) (a : Nat) : Byte := s.mem.read s.params a

/-- Are the `n` addresses from `a` all valid? An empty range is (rules R31, R45, R118). -/
def State.rangeOk (s : State) (a n : Nat) : Bool := decide (n = 0) || decide (a + n ≤ s.params.memSize)

/-- `n` bytes from `a` upward; the whole range is checked before the first byte moves (rules R32, R45). -/
def State.loadBytes (s : State) (a n : Nat) : Except Fault (List Byte) :=
  if s.rangeOk a n then .ok (s.mem.readBytes s.params a n) else .error .addressFault

/-- The bytes written without a check, from `a` upward. -/
def State.pokeBytes (s : State) (a : Nat) (bs : List Byte) : State := s.withMem (s.mem.writeBytes s.params a bs)

/-- The bytes from `a` upward; the whole range is checked before the first byte moves (rules R32, R45). -/
def State.storeBytes (s : State) (a : Nat) (bs : List Byte) : Except Fault State :=
  if s.rangeOk a bs.length then .ok (s.pokeBytes a bs) else .error .addressFault

/-- `MemRead(a, 1)` (rule R32). -/
def State.memRead8 (s : State) (a : Nat) : Except Fault Byte :=
  if a < s.params.memSize then .ok (s.peek a) else .error .addressFault

/-- `MemRead(a, 2)`, big-endian, used only by the fetch (rule R33). -/
def State.memRead16 (s : State) (a : Nat) : Except Fault Word :=
  if a + 1 < s.params.memSize then .ok (wordOfBytes (s.peek a) (s.peek (a + 1))) else .error .addressFault

/-- `MemWrite(a, 1, b)` (rule R32). -/
def State.memWrite8 (s : State) (a : Nat) (b : Byte) : Except Fault State :=
  if a < s.params.memSize then .ok (s.pokeBytes a [b]) else .error .addressFault

/-! ### Framebuffer (rules R19, R116) -/

/-- `FB[y][x]`. -/
def Framebuffer.get (fb : Framebuffer) (y : Fin 32) (x : Fin 64) : Bool := (fb[y.val])[x.val]

/-- `FB[y][x] <- FB[y][x] ^ 1`. -/
def Framebuffer.flip (fb : Framebuffer) (y : Fin 32) (x : Fin 64) : Framebuffer :=
  fb.set y.val ((fb[y.val]).set x.val (!(fb[y.val])[x.val]))

/-- All pixels 0 (rules R24, R117). -/
def Framebuffer.blank : Framebuffer := Vector.replicate 32 (Vector.replicate 64 false)

/-- `FB[y][x]` of a state. -/
def State.pixel (s : State) (y : Fin 32) (x : Fin 64) : Bool := s.fb.get y x

/-- One pixel of rule R116: sprite bit `7 - c` of row byte `b`, at column `x0 + c` and row `y0 + r`, each
coordinate wrapped on its own; the accumulator is the picture and `collided`. -/
def drawBit (x0 y0 : Byte) (r : Nat) (b : Byte) (acc : Framebuffer × Bool) (c : Nat) : Framebuffer × Bool :=
  if b.getLsbD (7 - c) then
    (acc.1.flip (Fin.ofNat 32 (y0.toNat + r)) (Fin.ofNat 64 (x0.toNat + c)),
     acc.2 || acc.1.get (Fin.ofNat 32 (y0.toNat + r)) (Fin.ofNat 64 (x0.toNat + c)))
  else acc

/-- One row of rule R116, column 0 first. -/
def drawRow (x0 y0 : Byte) (r : Nat) (b : Byte) (acc : Framebuffer × Bool) : Framebuffer × Bool :=
  [0, 1, 2, 3, 4, 5, 6, 7].foldl (drawBit x0 y0 r b) acc

/-- The rows of rule R116 from row `r` downward. -/
def drawRows (x0 y0 : Byte) : Nat → List Byte → Framebuffer × Bool → Framebuffer × Bool
  | _, [], acc => acc
  | r, b :: bs, acc => drawRows x0 y0 (r + 1) bs (drawRow x0 y0 r b acc)

/-- `DrawSprite(x0, y0, rows)`: the new picture and `collided` (rule R116). -/
def drawSprite (fb : Framebuffer) (x0 y0 : Byte) (rows : List Byte) : Framebuffer × Bool :=
  drawRows x0 y0 0 rows (fb, false)

/-! ### Keys and the key wait (rules R20, R21, R113) -/

/-- `KEYS[k]`. -/
def State.key (s : State) (k : Nibble) : Bool := s.keys[k.toNat]'(Reg.toNat_lt k)

/-- The least `k` with `KEYS[k] = 1`, if there is one (rule R113). -/
def State.leastKey (s : State) : Option Nat := s.keys.toList.findIdx? id

/-- The first step of the key wait (rule R113): `WAIT <- 1`, `WAITX <- x`, and `PC` addresses the word again. -/
def State.beginWait (s : State) (x : Reg) : State := (s.withWait true x).retreatPc

/-- A later step of the key wait (rules R54, R113): with a key down the wait completes, else nothing changes. -/
def State.pollWait (s : State) : State :=
  match s.leastKey with
  | some k => ((s.setV s.waitX (BitVec.ofNat 8 k)).advancePc).withWait false s.waitX
  | none => s

end Sys2Proof.Machine
end

