-- ==== Sys2Proof/Machine/Operands.lean ====
section
/-!
DEFINITION. The operand forms: how an instruction's fields and registers become the values it works on
(30_encoding.md rule R53, 41_register_ops.md rules R89, R91, 42_index_memory.md rules R97, R98, R101,
45_input.md rule R114).
-/

namespace Sys2Proof.Machine

/-- `zext_16(nnn)` (rule R53). -/
def imm12 (nnn : Addr12) : Word := nnn.setWidth 16

/-- `zext_16(V[x])` (rules R78, R96). -/
def State.getV16 (s : State) (x : Reg) : Word := (s.getV x).setWidth 16

/-- The source of the two shifts: `V[y]` if `SHIFT_SOURCE_VY`, else `V[x]` (rules R89, R91). -/
def State.shiftSource (s : State) (x y : Reg) : Byte := if s.params.shiftSourceVy then s.getV y else s.getV x

/-- `V[x][3:0]`: the key number of `SKP` and `SKNP` (rule R114), the digit of `LD F` (rule R97). -/
def State.lowNibble (s : State) (x : Reg) : Nibble := (s.getV x).extractLsb' 0 4

/-- `FONT_BASE + FONT_STRIDE * d`, the address of glyph `d` (rule R97). -/
def State.glyphAddr (s : State) (d : Nibble) : Word :=
  BitVec.ofNat 16 (s.params.fontBase + s.params.fontStride * d.toNat)

/-- The three decimal digits of a byte, hundreds first, each in a byte of its own (rule R98). -/
def bcdDigits (b : Byte) : List Byte :=
  [BitVec.ofNat 8 (b.toNat / 100), BitVec.ofNat 8 (b.toNat / 10 % 10), BitVec.ofNat 8 (b.toNat % 10)]

/-- The base address of a memory instruction: `I` as a natural number, to which the instruction's offsets are
added without wrapping (rules R31, R101). -/
def State.baseAddr (s : State) : Nat := s.i.toNat

end Sys2Proof.Machine
end

