-- ==== Sys2Proof/Machine/ControlFlow.lean ====
section
/-!
DEFINITION. The control-flow instructions (40_control_flow.md). `PC` has already been advanced by the step cycle
(30_encoding.md rule R54). Targets are not checked and need no alignment (rule R70).
-/

namespace Sys2Proof.Machine

/-- `JP nnn` (rule R71). -/
def execJp (nnn : Addr12) (s : State) : Result := .next (s.withPc (imm12 nnn))

/-- `CALL nnn` (rule R72): the advanced `PC` is the return address. -/
def execCall (nnn : Addr12) (s : State) : Result :=
  match s.push s.pc with
  | .ok s' => .next (s'.withPc (imm12 nnn))
  | .error k => raise k

/-- `RET` (rule R73). -/
def execRet (s : State) : Result := finish s.popPc

/-- `SE Vx, nn` (rule R74). -/
def execSeByte (x : Reg) (nn : Byte) (s : State) : Result := .next (s.skipIf (s.getV x == nn))

/-- `SNE Vx, nn` (rule R75). -/
def execSneByte (x : Reg) (nn : Byte) (s : State) : Result := .next (s.skipIf (s.getV x != nn))

/-- `SE Vx, Vy` (rule R76). -/
def execSeReg (x y : Reg) (s : State) : Result := .next (s.skipIf (s.getV x == s.getV y))

/-- `SNE Vx, Vy` (rule R77). -/
def execSneReg (x y : Reg) (s : State) : Result := .next (s.skipIf (s.getV x != s.getV y))

/-- `JP V0, nnn` (rule R78): the sum is not reduced to 12 bits. -/
def execJpV0 (nnn : Addr12) (s : State) : Result := .next (s.withPc (imm12 nnn + s.getV16 0))

end Sys2Proof.Machine
end

