-- ==== Sys2Proof/Machine/Display.lean ====
section
/-!
DEFINITION. The display instructions (46_display.md).
-/

namespace Sys2Proof.Machine

/-- `CLS` (rule R117): VF is not written. -/
def execCls (s : State) : Result := .next (s.withFb Framebuffer.blank)

/-- `DRW Vx, Vy, n` (rule R118): the coordinates and the sprite bytes are read first, the picture is written, and
VF receives the collision result last; with `n = 0` no memory is read and no pixel changes. -/
def execDrw (x y : Reg) (n : Nat) (s : State) : Result :=
  match s.loadBytes s.baseAddr n with
  | .ok rows =>
    let drawn := drawSprite s.fb (s.getV x) (s.getV y) rows
    .next ((s.withFb drawn.1).setV 0xF (flagByte drawn.2))
  | .error k => raise k

end Sys2Proof.Machine
end

