-- ==== Sys2Proof/Machine/IndexMemory.lean ====
section
/-!
DEFINITION. The index-register and memory instructions (42_index_memory.md). `I` is not modified by an access, and
none writes VF as a flag (rules R101, R11).
-/

namespace Sys2Proof.Machine

/-- `LD I, nnn` (rule R95). -/
def execLdI (nnn : Addr12) (s : State) : Result := .next (s.withI (imm12 nnn))

/-- `ADD I, Vx` (rule R96): wraps modulo 65536, no flag, no check. -/
def execAddI (x : Reg) (s : State) : Result := .next (s.withI (s.i + s.getV16 x))

/-- `LD F, Vx` (rule R97): the address of the glyph of the low nibble; memory is not read. -/
def execLdF (x : Reg) (s : State) : Result := .next (s.withI (s.glyphAddr (s.lowNibble x)))

/-- `LD B, Vx` (rule R98): hundreds, tens, ones at `I`, `I + 1`, `I + 2`. -/
def execLdB (x : Reg) (s : State) : Result := finish (s.storeBytes s.baseAddr (bcdDigits (s.getV x)))

/-- `LD [I], Vx` (rule R99): `V[0]`..`V[x]` to ascending addresses from `I`. -/
def execStoreRegs (x : Reg) (s : State) : Result := finish (s.storeBytes s.baseAddr (s.regsTo x))

/-- `LD Vx, [I]` (rule R100): `V[0]`..`V[x]` from ascending addresses from `I`. -/
def execLoadRegs (x : Reg) (s : State) : Result :=
  match s.loadBytes s.baseAddr (x.toNat + 1) with
  | .ok bs => .next (s.withV (setRegsFrom s.v 0 bs))
  | .error k => raise k

end Sys2Proof.Machine
end

