-- ==== Sys2Proof/Machine/Input.lean ====
section
/-!
DEFINITION. The key-input instructions (45_input.md). They only read the key latch; its level at this step is what
counts (rules R111 to R114).
-/

namespace Sys2Proof.Machine

/-- `SKP Vx` (rule R111). -/
def execSkp (x : Reg) (s : State) : Result := .next (s.skipIf (s.key (s.lowNibble x)))

/-- `SKNP Vx` (rule R112). -/
def execSknp (x : Reg) (s : State) : Result := .next (s.skipIf (!s.key (s.lowNibble x)))

/-- `LD Vx, K`, its first step (rule R113); the later steps are `State.pollWait`. -/
def execLdVxK (x : Reg) (s : State) : Result := .next (s.beginWait x)

end Sys2Proof.Machine
end

