-- ==== Sys2Proof/Machine/Random.lean ====
section
/-!
DEFINITION. The random-number instruction (43_random.md). The random byte is the input of the step, which the step
cycle puts into `State.rnd`; no other instruction reads it (rule R106).
-/

namespace Sys2Proof.Machine

/-- `RND Vx, nn` (rule R105). -/
def execRnd (x : Reg) (nn : Byte) (s : State) : Result := .next (s.setV x (s.rnd &&& nn))

end Sys2Proof.Machine
end

