-- ==== Sys2Proof/Machine/RegisterOps.lean ====
section
/-!
DEFINITION. The register and arithmetic instructions (41_register_ops.md). Every operand is read before the result
is written, and a flag is written to VF last (rule R80). None can fault.
-/

namespace Sys2Proof.Machine

/-- `LD Vx, nn` (rule R81). -/
def execLdByte (x : Reg) (nn : Byte) (s : State) : Result := .next (s.setV x nn)

/-- `ADD Vx, nn` (rule R82): no flag. -/
def execAddByte (x : Reg) (nn : Byte) (s : State) : Result := .next (s.setV x (s.getV x + nn))

/-- `LD Vx, Vy` (rule R83). -/
def execLdReg (x y : Reg) (s : State) : Result := .next (s.setV x (s.getV y))

/-- `OR Vx, Vy` (rule R84): VF is no flag here. -/
def execOrReg (x y : Reg) (s : State) : Result := .next (s.setV x (s.getV x ||| s.getV y))

/-- `AND Vx, Vy` (rule R85): VF is no flag here. -/
def execAndReg (x y : Reg) (s : State) : Result := .next (s.setV x (s.getV x &&& s.getV y))

/-- `XOR Vx, Vy` (rule R86): VF is no flag here. -/
def execXorReg (x y : Reg) (s : State) : Result := .next (s.setV x (s.getV x ^^^ s.getV y))

/-- `ADD Vx, Vy` (rule R87): VF is the carry. -/
def execAddReg (x y : Reg) (s : State) : Result := .next (s.setVFlag x (addCarry (s.getV x) (s.getV y)))

/-- `SUB Vx, Vy` (rule R88): VF is NOT borrow of `V[x] - V[y]`. -/
def execSub (x y : Reg) (s : State) : Result := .next (s.setVFlag x (subNoBorrow (s.getV x) (s.getV y)))

/-- `SHR Vx` (rule R89): VF is bit 0 of the source. -/
def execShr (x y : Reg) (s : State) : Result := .next (s.setVFlag x (shrOut (s.shiftSource x y)))

/-- `SUBN Vx, Vy` (rule R90): VF is NOT borrow of `V[y] - V[x]`. -/
def execSubn (x y : Reg) (s : State) : Result := .next (s.setVFlag x (subNoBorrow (s.getV y) (s.getV x)))

/-- `SHL Vx` (rule R91): VF is bit 7 of the source. -/
def execShl (x y : Reg) (s : State) : Result := .next (s.setVFlag x (shlOut (s.shiftSource x y)))

end Sys2Proof.Machine
end

