-- ==== Sys2Proof/Machine/Timers.lean ====
section
/-!
DEFINITION. The timer instructions (44_timers.md). The countdown is the `Tick` event, not an instruction
(rule R110; Machine/Events.lean).
-/

namespace Sys2Proof.Machine

/-- `LD Vx, DT` (rule R107). -/
def execLdVxDt (x : Reg) (s : State) : Result := .next (s.setV x s.dt)

/-- `LD DT, Vx` (rule R108). -/
def execLdDtVx (x : Reg) (s : State) : Result := .next (s.withDt (s.getV x))

/-- `LD ST, Vx` (rule R109). -/
def execLdStVx (x : Reg) (s : State) : Result := .next (s.withSt (s.getV x))

end Sys2Proof.Machine
end

