-- ==== Sys2Proof/Machine/Cycle.lean ====
section
/-!
DEFINITION. The step cycle (30_encoding.md rule R54): the fault latch, the pending key wait, the fetch, the
increment, the decoder, the execution; and placing a word where the next fetch reads it.
-/

namespace Sys2Proof.Machine

/-- The fetch: `op <- MemRead(PC, 2)` (rules R33, R41, R54). -/
def State.fetch (s : State) : Except Fault Word := s.memRead16 s.pc.toNat

/-- The state an instruction executes in: `PC` addresses the following instruction, and the step's random input
is presented (rules R54, R106). -/
def State.ready (s : State) (rnd : Byte) : State := (s.advancePc).withRnd rnd

/-- Fetch, decode and execute (rule R54, its last four lines); the first check that fails ends the step
(rule R128). -/
def runInstr (rnd : Byte) (s : State) : Result :=
  match s.fetch with
  | .error k => raise k
  | .ok op =>
    match decodeWord op with
    | .error _ => raise .invalidOpcode
    | .ok i => exec i (s.ready rnd)

/-- `Step(rnd)` (rule R54): a faulted engine does not move (rule R129), a pending key wait polls the keys
(rule R113), else one instruction runs. -/
def stepWith (rnd : Byte) (s : State) : Result :=
  if s.faultKind.isSome then .next s
  else if s.wait then .next s.pollWait
  else runInstr rnd s

/-- One `Step` whose random input is the next value of the free stream (rule R106; notes/assumptions/2.md). -/
def stepDraw (s : State) : Result := stepWith (Config.rnd s.draws) s.nextDraw

/-- The state with a word stored where the next step fetches: its two bytes at `PC` and `PC + 1`, no key wait
pending and no fault latched. -/
def State.placeWord (s : State) (w : Word) : State :=
  { s.pokeBytes s.pc.toNat (bytesOfWord w) with wait := false, faultKind := none }

end Sys2Proof.Machine
end

