-- ==== Sys2Proof/Machine/Step.lean ====
section
/-!
DEFINITION. The step of the machine, and placing an instruction where it fetches. Both only call Machine/Cycle.lean.
-/

namespace Sys2Proof.Machine

/-- One `Step` event (rule R54). -/
def step (s : State) : Host.Outcome State Fault Refusal := stepDraw s

/-- The state with the instruction whose bits are `w` (the low `nbits` of its word) stored where `step` fetches next. -/
def State.withFetchWord (s : State) (nbits w : Nat) : State := s.placeWord (BitVec.ofNat 16 (w % 2 ^ nbits))

end Sys2Proof.Machine
end

