-- ==== Sys2Proof/Machine/Events.lean ====
section
/-!
DEFINITION. The five events and the outputs (00_scope.md rule R2; 60_exceptions.md sections 5 and 6;
70_reset_and_hazards.md), the port-level cycle (rules R128, R139), and the host's protocol (rules R43, R148).
-/

namespace Sys2Proof.Machine

/-! ### The events -/

/-- The five atomic events through which alone the state changes (rule R2). -/
inductive Event where
  /-- `Reset` (rule R146). -/
  | reset
  /-- `Load(bytes)` (rule R42). -/
  | load (bytes : List Byte)
  /-- `Step(rnd)` (rule R54). -/
  | step (rnd : Byte)
  /-- `Tick` (rule R134). -/
  | tick
  /-- `SetKey(k, v)` (rule R138). -/
  | setKey (k : Nibble) (v : Bool)
  deriving DecidableEq, Repr

/-- One timer's countdown: by 1 while above 0, never below 0 (rules R16, R134). -/
def countDown (b : Byte) : Byte := if b = 0 then 0 else b - 1

/-- `Tick` (rule R134): each timer on its own, nothing else. -/
def State.tick (s : State) : State := (s.withDt (countDown s.dt)).withSt (countDown s.st)

/-- `SetKey(k, v)` (rule R138). -/
def State.setKey (s : State) (k : Nibble) (v : Bool) : State :=
  s.withKeys (s.keys.set k.toNat v (Reg.toNat_lt k))

/-- `Load(bytes)` on an engine that is not faulted (rule R42). -/
def State.load (s : State) (bytes : List Byte) : Result :=
  if Config.loadBase + bytes.length ≤ s.params.memSize then .next (s.pokeBytes Config.loadBase bytes)
  else raise .romTooLarge

/-- `Load(bytes)` (rules R42, R129): a faulted engine ignores it. -/
def loadEvent (bytes : List Byte) (s : State) : Result :=
  if s.faultKind.isSome then .next s else s.load bytes

/-- `Reset` (rule R146): every piece of state at its reset value, whatever it was; the parameters stay, and so does
the count of random draws, which belongs to the environment (notes/assumptions/2.md). -/
def State.resetEvent (s : State) : State := { State.resetWith s.params with draws := s.draws }

/-- The engine after an outcome: a fault is latched (rule R129), a refusal would leave the state. -/
def settle (s : State) : Result → State
  | .next t => t
  | .fault k => s.latchFault k
  | .refused _ => s

/-- The effect of one event on the engine, in every state (rule R2). -/
def event : Event → State → State
  | .reset, s => s.resetEvent
  | .load bytes, s => settle s (loadEvent bytes s)
  | .step rnd, s => settle s (stepWith rnd s)
  | .tick, s => s.tick
  | .setKey k v, s => s.setKey k v

/-- A run is a sequence of events (rule R151): any interleaving the host produces (rule R154). -/
def runEvents : List Event → State → State
  | [], s => s
  | e :: es, s => runEvents es (event e s)

/-! ### The outputs -/

/-- `PixelAt(x, y)`: `x` is a 6-bit and `y` a 5-bit input (rule R136). -/
def State.pixelAt (s : State) (x : BitVec 6) (y : BitVec 5) : Bool := s.pixel ⟨y.toNat, y.isLt⟩ ⟨x.toNat, x.isLt⟩

/-- `SoundOn`: 1 exactly when `ST > 0` (rule R137). -/
def State.soundOn (s : State) : Bool := decide (0 < s.st.toNat)

/-- The output `dt` (rule R137). -/
def State.dtOut (s : State) : Byte := s.dt

/-- The output `st` (rule R137). -/
def State.stOut (s : State) : Byte := s.st

/-- The output `Waiting` (rule R115). -/
def State.waiting (s : State) : Bool := s.wait

/-- The output `FaultKind`, the 3-bit code, 0 for none (rules R22, R129). -/
def State.faultCode (s : State) : BitVec 3 :=
  match s.faultKind with
  | none => 0
  | some k => k.code

/-! ### Requests presented in one clock cycle (rules R128, R139) -/

/-- The request strobes of one clock cycle, less the load port, whose streaming protocol is not architectural
(rule R139). -/
structure PortCycle where
  /-- `rst`. -/
  rst : Bool
  /-- `tick_req`. -/
  tickReq : Bool
  /-- `key_req` with `key_idx`, `key_val`. -/
  keyReq : Option (Nibble × Bool)
  /-- `step_req` with `rnd`. -/
  stepReq : Option Byte
  deriving DecidableEq, Repr

/-- The events of one clock cycle in the order the hardware serves them: `Tick`, then `SetKey`, then `Step`;
`Reset` wins over everything presented with it (rule R128). -/
def PortCycle.events (c : PortCycle) : List Event :=
  if c.rst then [.reset]
  else
    (if c.tickReq then [.tick] else []) ++
    (match c.keyReq with
      | some (k, v) => [.setKey k v]
      | none => []) ++
    (match c.stepReq with
      | some r => [.step r]
      | none => [])

/-- The engine after the requests of one clock cycle. -/
def portCycle (c : PortCycle) (s : State) : State := runEvents c.events s

/-! ### The host's protocol (rules R43, R148, R151, R152) -/

/-- The engine with what the host's protocol remembers: whether the one `Load` may still come. -/
structure Session where
  /-- The engine. -/
  engine : State
  /-- No `Load` and no `Step` has come since the last `Reset`. -/
  loadOpen : Bool
  deriving DecidableEq, Repr

/-- The session right after `Reset` under the parameters `p`. -/
def Session.start (p : Params) : Session := ⟨State.resetWith p, true⟩

/-- One event under the protocol: a second or late `Load` has no move (`none`; D25, U10, notes/assumptions/6.md). -/
def Session.event (h : Session) (e : Event) : Option Session :=
  match e with
  | .reset => some ⟨Machine.event .reset h.engine, true⟩
  | .load bytes => if h.loadOpen then some ⟨Machine.event (.load bytes) h.engine, false⟩ else none
  | .step rnd => some ⟨Machine.event (.step rnd) h.engine, false⟩
  | .tick => some ⟨Machine.event .tick h.engine, h.loadOpen⟩
  | .setKey k v => some ⟨Machine.event (.setKey k v) h.engine, h.loadOpen⟩

/-- A sequence of events under the protocol; `none` when one of them has no move. -/
def Session.run (h : Session) : List Event → Option Session
  | [] => some h
  | e :: es => (h.event e).bind fun h2 => Session.run h2 es

end Sys2Proof.Machine
end

