-- ==== Sys2Proof/Safety.lean ====
section
/-!
DEFINITION. The terms in which claims are made: the parts of the state and what "unchanged" means for each, when an
instruction faults (60_exceptions.md rules R122 to R124, R128), which bit of a sprite covers a pixel
(46_display.md rule R116), and the invariant of the machine.
-/

namespace Sys2Proof.Machine

/-! ### Parts of the state and frames -/

/-- The pieces of state one by one (10_state.md section 1). -/
inductive Part where
  /-- `V[r]`. -/
  | reg (r : Reg)
  /-- `I`. -/
  | index
  /-- `PC`. -/
  | pc
  /-- `SP`. -/
  | sp
  /-- `STACK[j]`. -/
  | stackEntry (j : Fin 16)
  /-- `DT`. -/
  | delay
  /-- `ST`. -/
  | sound
  /-- `MEM[a]`. -/
  | byte (a : Nat)
  /-- `FB[y][x]`. -/
  | pixel (y : Fin 32) (x : Fin 64)
  /-- `KEYS[k]`. -/
  | key (k : Nibble)
  /-- `WAIT`. -/
  | wait
  /-- `WAITX`. -/
  | waitX
  /-- `FAULT_KIND`. -/
  | faultKind
  /-- The parameters (the model's own field). -/
  | params
  /-- The random input of the step (the model's own field). -/
  | rnd
  /-- The count of random draws (the model's own field). -/
  | draws
  deriving DecidableEq, Repr

/-- The part reads the same in both states. A byte of memory reads through `State.peek`. -/
def Part.same (s t : State) : Part → Prop
  | .reg r => t.getV r = s.getV r
  | .index => t.i = s.i
  | .pc => t.pc = s.pc
  | .sp => t.sp = s.sp
  | .stackEntry j => t.stack[j.val] = s.stack[j.val]
  | .delay => t.dt = s.dt
  | .sound => t.st = s.st
  | .byte a => t.peek a = s.peek a
  | .pixel y x => t.pixel y x = s.pixel y x
  | .key k => t.key k = s.key k
  | .wait => t.wait = s.wait
  | .waitX => t.waitX = s.waitX
  | .faultKind => t.faultKind = s.faultKind
  | .params => t.params = s.params
  | .rnd => t.rnd = s.rnd
  | .draws => t.draws = s.draws

/-- Every part of the state outside `changed` reads in `t` as it read in `s`. -/
def OnlyChanges (changed : Part → Prop) (s t : State) : Prop := ∀ p, ¬ changed p → p.same s t

/-! ### When an instruction faults -/

/-- The one execution fault an instruction raises in a state, if it raises one (rules R122 to R124, R128; for a depth
above 16, which no run reaches, notes/assumptions/3.md). -/
def execFault (i : Instr) (s : State) : Option Fault :=
  match i with
  | .call _ => if 16 ≤ s.sp.toNat then some .stackOverflow else none
  | .ret => if s.sp.toNat = 0 then some .stackUnderflow else none
  | .drw _ _ n => if 0 < n ∧ s.params.memSize ≤ s.i.toNat + n - 1 then some .addressFault else none
  | .ldB _ => if s.params.memSize ≤ s.i.toNat + 2 then some .addressFault else none
  | .storeRegs x => if s.params.memSize ≤ s.i.toNat + x.toNat then some .addressFault else none
  | .loadRegs x => if s.params.memSize ≤ s.i.toNat + x.toNat then some .addressFault else none
  | .cls => none
  | .jp _ => none
  | .seByte _ _ => none
  | .sneByte _ _ => none
  | .seReg _ _ => none
  | .ldByte _ _ => none
  | .addByte _ _ => none
  | .ldReg _ _ => none
  | .orReg _ _ => none
  | .andReg _ _ => none
  | .xorReg _ _ => none
  | .addReg _ _ => none
  | .sub _ _ => none
  | .shr _ _ => none
  | .subn _ _ => none
  | .shl _ _ => none
  | .sneReg _ _ => none
  | .ldI _ => none
  | .jpV0 _ => none
  | .rnd _ _ => none
  | .skp _ => none
  | .sknp _ => none
  | .ldVxDt _ => none
  | .ldVxK _ => none
  | .ldDtVx _ => none
  | .ldStVx _ => none
  | .addI _ => none
  | .ldF _ => none

/-! ### Named destinations and flags (rules R10, R11) -/

/-- Is `V[r]` the named destination of the instruction, or one of them? The key wait writes its register in a later
step, so its first step has none (rule R113). -/
def namesDest (i : Instr) (r : Reg) : Bool :=
  match i with
  | .cls => false
  | .ret => false
  | .jp _ => false
  | .call _ => false
  | .seByte _ _ => false
  | .sneByte _ _ => false
  | .seReg _ _ => false
  | .ldByte x _ => decide (r = x)
  | .addByte x _ => decide (r = x)
  | .ldReg x _ => decide (r = x)
  | .orReg x _ => decide (r = x)
  | .andReg x _ => decide (r = x)
  | .xorReg x _ => decide (r = x)
  | .addReg x _ => decide (r = x)
  | .sub x _ => decide (r = x)
  | .shr x _ => decide (r = x)
  | .subn x _ => decide (r = x)
  | .shl x _ => decide (r = x)
  | .sneReg _ _ => false
  | .ldI _ => false
  | .jpV0 _ => false
  | .rnd x _ => decide (r = x)
  | .drw _ _ _ => false
  | .skp _ => false
  | .sknp _ => false
  | .ldVxDt x => decide (r = x)
  | .ldVxK _ => false
  | .ldDtVx _ => false
  | .ldStVx _ => false
  | .addI _ => false
  | .ldF _ => false
  | .ldB _ => false
  | .storeRegs _ => false
  | .loadRegs x => decide (r.toNat ≤ x.toNat)

/-- Does the instruction define a flag result? Exactly the six of rule R11 do. -/
def setsFlag (i : Instr) : Bool :=
  match i with
  | .cls => false
  | .ret => false
  | .jp _ => false
  | .call _ => false
  | .seByte _ _ => false
  | .sneByte _ _ => false
  | .seReg _ _ => false
  | .ldByte _ _ => false
  | .addByte _ _ => false
  | .ldReg _ _ => false
  | .orReg _ _ => false
  | .andReg _ _ => false
  | .xorReg _ _ => false
  | .addReg _ _ => true
  | .sub _ _ => true
  | .shr _ _ => true
  | .subn _ _ => true
  | .shl _ _ => true
  | .sneReg _ _ => false
  | .ldI _ => false
  | .jpV0 _ => false
  | .rnd _ _ => false
  | .drw _ _ _ => true
  | .skp _ => false
  | .sknp _ => false
  | .ldVxDt _ => false
  | .ldVxK _ => false
  | .ldDtVx _ => false
  | .ldStVx _ => false
  | .addI _ => false
  | .ldF _ => false
  | .ldB _ => false
  | .storeRegs _ => false
  | .loadRegs _ => false

/-! ### Sprites -/

/-- Does a 1 bit of the sprite `rows`, drawn at `(x0, y0)`, fall on the pixel at row `y`, column `x`? Sprite row
`r`, column `c` is bit `7 - c` of `rows[r]` and falls on column `(x0 + c) mod 64`, row `(y0 + r) mod 32`
(rule R116). -/
def spriteCovers (x0 y0 : Byte) (rows : List Byte) (y : Fin 32) (x : Fin 64) : Prop :=
  ∃ r c, ∃ b, rows[r]? = some b ∧ c < 8 ∧ b.getLsbD (7 - c) = true ∧
    (x0.toNat + c) % 64 = x.val ∧ (y0.toNat + r) % 32 = y.val

/-- The sprite of `DRW` in a state: the `n` bytes from `I` upward (rule R118). -/
def State.sprite (s : State) (n : Nat) : List Byte := (List.range n).map fun r => s.peek (s.baseAddr + r)

/-! ### The invariant -/

/-- While a key wait is pending, `PC` still addresses the `LD Vx, K` word of the register `WAITX` (rule R21). -/
def State.waitOk (s : State) : Bool :=
  !s.wait || (match s.fetch with
    | .ok op => decide (decodeWord op = .ok (.ldVxK s.waitX))
    | .error _ => false)

/-- The memory is in its canonical form: rising, minimal, inside `MEM`. -/
def State.memOk (s : State) : Bool := s.mem.wf s.params

/-- The stack holds at most 16 return addresses (rule R14). -/
def State.spOk (s : State) : Bool := decide (s.sp.toNat ≤ 16)

/-- The invariant: canonical memory, a pending wait addresses its own instruction, and `SP` is a depth. -/
abbrev State.Inv (s : State) : Prop := s.memOk = true ∧ s.waitOk = true ∧ s.spOk = true

/-- The invariant of an engine under the host's protocol: until a fault is latched the state meets `State.Inv`,
and before the program starts no key wait is pending. -/
def Session.Inv (h : Session) : Prop :=
  h.engine.faultKind = none → h.engine.Inv ∧ (h.loadOpen = true → h.engine.wait = false)

end Sys2Proof.Machine
end

