-- ==== Sys2Proof/Certificates/Slice0/Obligations.lean ====
section
/-!
DEFINITION. The statements for the provers. Each docstring names the rule of spec/ it formalises. An instruction is
stated through `exec`, in a state whose `PC` the step cycle has already advanced (30_encoding.md rule R54), so the
`PC` there is the address of the following instruction. "Decision D<n>" is the spec's own choice in
92_eei_decisions.md; a statement that rests on one, or on a log entry of notes/assumptions/, is a derived one.
-/

open Sys2Proof Sys2Proof.Machine

/-! ### Encoding (30_encoding.md) -/

/-- R50, R52, R55 (decisions D5, D6): decoding the word, or the bytes, of a well-formed instruction gives the instruction, with every
operand at every value its field admits. -/
def Obligations.DecodeOfEncodeIsTheInstruction : Prop :=
  ∀ i : Instr, i.WellFormed →
    decodeWord (encodeWord i) = .ok i ∧ ∀ rest, decode (encode i ++ rest) = .ok (i, rest)

/-- R50, R51 (decisions D5, D6): a word that decodes gives a well-formed instruction whose word it is, so decoding drops no bit. -/
def Obligations.EncodeOfDecodeIsTheWord : Prop :=
  ∀ (op : Word) (i : Instr), decodeWord op = .ok i → i.WellFormed ∧ encodeWord i = op

/-- R55 (decisions D5, D6): `Decode(op)` selects the instruction whose row of the opcode map matches, testing
`op & mask = match`; with no matching row there is no instruction. -/
def Obligations.DecodeSelectsTheMatchingRow : Prop :=
  ∀ op : Word,
    (∀ r ∈ opcodeTable, r.matches op = true → ∃ i, decodeWord op = .ok i ∧ i.row = r) ∧
    ((∀ r ∈ opcodeTable, r.matches op = false) → decodeWord op = .error .invalidOpcode)

/-- R55 (decision D6): the rows of the opcode map are disjoint, at most one matches a word. -/
def Obligations.OpcodeRowsAreDisjoint : Prop :=
  opcodeTable.Pairwise fun r q => ∀ op : Word, r.matches op = true → q.matches op = false

/-- R56 (decision D6): the illegal words are exactly the six patterns of the rule's table. -/
def Obligations.IllegalWordsAreExactlyThoseListed : Prop :=
  ∀ op : Word, decodeWord op = .error .invalidOpcode ↔
    (opFam op = 0x0 ∧ opNNN op ≠ 0x0E0 ∧ opNNN op ≠ 0x0EE) ∨
    (opFam op = 0x5 ∧ opN op ≠ 0) ∨
    (opFam op = 0x8 ∧ opN op ∈ ([0x8, 0x9, 0xA, 0xB, 0xC, 0xD, 0xF] : List Nibble)) ∨
    (opFam op = 0x9 ∧ opN op ≠ 0) ∨
    (opFam op = 0xE ∧ opNN op ≠ 0x9E ∧ opNN op ≠ 0xA1) ∨
    (opFam op = 0xF ∧ opNN op ∉ ([0x07, 0x0A, 0x15, 0x18, 0x1E, 0x29, 0x33, 0x55, 0x65] : List Byte))

/-- Words written out from the spec's encodings (the four PYC8 prints and one of each remaining family) decode to the
instructions they stand for. -/
def Obligations.WrittenOutWordsDecode : Prop :=
  [0x6A02, 0x6B03, 0x8AB4, 0x00E0, 0x2ABC, 0xF21E, 0xC30F, 0xF507, 0xE29E, 0xD015].map decodeWord =
    [.ok (.ldByte 0xA 0x02), .ok (.ldByte 0xB 0x03), .ok (.addReg 0xA 0xB), .ok .cls, .ok (.call 0xABC),
      .ok (.addI 0x2), .ok (.rnd 0x3 0x0F), .ok (.ldVxDt 0x5), .ok (.skp 0x2), .ok (.drw 0x0 0x1 5)]

/-! ### The step cycle (30_encoding.md rule R54, 20_memory.md, 60_exceptions.md) -/

/-- R54: when no fault is latched and no key wait pends, and the two bytes at `PC` decode to `i`, a step is `exec i`
in the state whose `PC` is advanced by 2 and which holds the step's random input; `step` takes that input from the
free stream and counts the draw (the model's own, notes/assumptions/2.md and 5.md). -/
def Obligations.StepRunsTheDecodedInstruction : Prop :=
  ∀ (s : State) (i : Instr) (rnd : Byte), s.faultKind = none → s.wait = false →
    s.pc.toNat + 1 < s.params.memSize →
    decode [s.peek s.pc.toNat, s.peek (s.pc.toNat + 1)] = .ok (i, []) →
    stepWith rnd s = exec i { s with pc := s.pc + 2, rnd := rnd } ∧
    step s = exec i { s with pc := s.pc + 2, rnd := Config.rnd s.draws, draws := s.draws + 1 }

/-- R33: `MemRead(a, 2)` faults when `a + 1` is out of range, else gives `MEM[a] * 256 + MEM[a + 1]`; the fetch is
that read at `PC`. -/
def Obligations.SixteenBitReadIsBigEndianAndChecked : Prop :=
  (∀ (s : State) (a : Nat), s.params.memSize ≤ a + 1 → s.memRead16 a = .error .addressFault) ∧
  (∀ (s : State) (a : Nat), a + 1 < s.params.memSize → ∃ w, s.memRead16 a = .ok w ∧
    w.toNat = (s.peek a).toNat * 256 + (s.peek (a + 1)).toNat) ∧
  (∀ s : State, s.fetch = s.memRead16 s.pc.toNat)

/-- R32, R35, R45 (decisions D2, D22, D26): an access to `n` bytes from `a` upward, by which the instructions move data,
gives or changes those bytes alone, whichever region they lie in; a range that is partly outside memory faults, an empty
one never does. `MemRead(a, 1)` and `MemWrite(a, 1, b)` are the accesses to one byte. -/
def Obligations.ByteAccessTouchesOneByteOrFaults : Prop :=
  (∀ (s : State) (a n : Nat),
    (0 < n → s.params.memSize < a + n → s.loadBytes a n = .error .addressFault) ∧
    (n = 0 ∨ a + n ≤ s.params.memSize →
      ∃ bs, s.loadBytes a n = .ok bs ∧ bs.length = n ∧ ∀ k, k < n → bs[k]? = some (s.peek (a + k)))) ∧
  (∀ (s : State) (a : Nat) (bs : List Byte),
    (0 < bs.length → s.params.memSize < a + bs.length → s.storeBytes a bs = .error .addressFault) ∧
    (bs.length = 0 ∨ a + bs.length ≤ s.params.memSize →
      ∃ t, s.storeBytes a bs = .ok t ∧ (∀ k, k < bs.length → bs[k]? = some (t.peek (a + k))) ∧
        OnlyChanges (fun p => ∃ a', a ≤ a' ∧ a' < a + bs.length ∧ p = .byte a') s t)) ∧
  (∀ (s : State) (a : Nat) (b : Byte),
    (s.params.memSize ≤ a → s.memRead8 a = .error .addressFault ∧ s.memWrite8 a b = .error .addressFault) ∧
    (a < s.params.memSize → s.memRead8 a = .ok (s.peek a) ∧
      ∃ t, s.memWrite8 a b = .ok t ∧ t.peek a = b ∧ OnlyChanges (· = .byte a) s t))

/-- R128 (a) (decision D28): the order of the checks within one step: the fetch, then the decoder, then the instruction's own. -/
def Obligations.StepChecksFetchThenDecodeThenExecution : Prop :=
  ∀ (s : State) (rnd : Byte), s.faultKind = none → s.wait = false →
    (s.params.memSize ≤ s.pc.toNat + 1 → stepWith rnd s = .fault .addressFault) ∧
    (∀ op, s.fetch = .ok op → decodeWord op = .error .invalidOpcode → stepWith rnd s = .fault .invalidOpcode) ∧
    (∀ op i k, s.fetch = .ok op → decodeWord op = .ok i → execFault i s = some k → stepWith rnd s = .fault k)

/-- R122 to R124, R128, R45 (decisions D3, D17, D22, D28): an instruction raises its one execution fault exactly under
the stated condition, on the whole range of a memory instruction, and completes in every other state. At a depth above
16, which the invariant rules out, `CALL` overflows and `RET` completes by the model's choice (notes/assumptions/3.md). -/
def Obligations.InstructionsFaultExactlyWhenStated : Prop :=
  ∀ (i : Instr) (s : State),
    (∀ k, execFault i s = some k → exec i s = .fault k) ∧
    (execFault i s = none → ∃ t, exec i s = .next t)

/-- R126: `RomTooLarge` is raised by the `Load`, never by a `Step`: by the `Load` of an image longer than `MEM_SIZE - 0x200` on
an engine that is not faulted, and by no step whatever its random input. -/
def Obligations.RomTooLargeIsRaisedByLoadAlone : Prop :=
  (∀ (s : State) (bytes : List Byte), s.faultKind = none →
    (loadEvent bytes s = .fault .romTooLarge ↔ s.params.memSize < 0x200 + bytes.length)) ∧
  (∀ (s : State) (rnd : Byte), stepWith rnd s ≠ .fault .romTooLarge) ∧ (∀ s : State, step s ≠ .fault .romTooLarge)

/-- R57 (there is no word without a meaning: it is an instruction or illegal): no step is refused. -/
def Obligations.NoStepIsRefused : Prop :=
  ∀ (s : State) (rnd : Byte) (r : Refusal), stepWith rnd s ≠ .refused r ∧ step s ≠ .refused r

/-! ### Control flow (40_control_flow.md) -/

/-- R71, and R78 (decision D16, the base is `V[0]`): the two jumps set `PC` alone, unchecked; the sum of `JP V0` is not
reduced to 12 bits. -/
def Obligations.JumpsSetPc : Prop :=
  ∀ (nnn : Addr12) (s : State),
    (decodeWord ((0x1000 : Word) ||| nnn.setWidth 16) = .ok (.jp nnn) ∧
      ∃ t, exec (.jp nnn) s = .next t ∧ t.pc.toNat = nnn.toNat ∧ OnlyChanges (· = .pc) s t) ∧
    (decodeWord ((0xB000 : Word) ||| nnn.setWidth 16) = .ok (.jpV0 nnn) ∧
      ∃ t, exec (.jpV0 nnn) s = .next t ∧ t.pc.toNat = nnn.toNat + (s.getV 0).toNat ∧ OnlyChanges (· = .pc) s t)

/-- R72: `CALL` overflows at depth 16 and otherwise stacks the following instruction's address and jumps. -/
def Obligations.CallPushesTheFollowingAddress : Prop :=
  ∀ (nnn : Addr12) (s : State),
    decodeWord ((0x2000 : Word) ||| nnn.setWidth 16) = .ok (.call nnn) ∧
    (s.sp.toNat = 16 → exec (.call nnn) s = .fault .stackOverflow) ∧
    (s.sp.toNat < 16 → ∃ t, exec (.call nnn) s = .next t ∧ t.stack[s.sp.toNat]? = some s.pc ∧
      t.sp.toNat = s.sp.toNat + 1 ∧ t.pc.toNat = nnn.toNat ∧
      OnlyChanges (fun p => p = .pc ∨ p = .sp ∨ ∃ j, j.val = s.sp.toNat ∧ p = .stackEntry j) s t)

/-- R73: `RET` underflows at depth 0 and otherwise takes `PC` from the top, which keeps its value; the entry is read
where `SP` is at most 16, as R14 and the invariant have it. -/
def Obligations.ReturnPopsIntoPc : Prop :=
  ∀ s : State,
    decodeWord 0x00EE = .ok .ret ∧
    (s.sp.toNat = 0 → exec .ret s = .fault .stackUnderflow) ∧
    (0 < s.sp.toNat → ∃ t, exec .ret s = .next t ∧ t.sp.toNat = s.sp.toNat - 1 ∧
      (s.sp.toNat ≤ 16 → s.stack[s.sp.toNat - 1]? = some t.pc) ∧ OnlyChanges (fun p => p = .pc ∨ p = .sp) s t)

/-- R74, R75: the skips that compare a register with a literal. -/
def Obligations.SkipsOnLiteral : Prop :=
  ∀ (x : Reg) (nn : Byte) (s : State),
    (decodeWord ((0x3000 : Word) ||| x.setWidth 16 <<< 8 ||| nn.setWidth 16) = .ok (.seByte x nn) ∧
      ∃ t, exec (.seByte x nn) s = .next t ∧
        t.pc.toNat = (if s.getV x = nn then (s.pc.toNat + 2) % 65536 else s.pc.toNat) ∧ OnlyChanges (· = .pc) s t) ∧
    (decodeWord ((0x4000 : Word) ||| x.setWidth 16 <<< 8 ||| nn.setWidth 16) = .ok (.sneByte x nn) ∧
      ∃ t, exec (.sneByte x nn) s = .next t ∧
        t.pc.toNat = (if s.getV x ≠ nn then (s.pc.toNat + 2) % 65536 else s.pc.toNat) ∧ OnlyChanges (· = .pc) s t)

/-- R76, R77: the skips that compare two registers. -/
def Obligations.SkipsOnRegister : Prop :=
  ∀ (x y : Reg) (s : State),
    (decodeWord ((0x5000 : Word) ||| x.setWidth 16 <<< 8 ||| y.setWidth 16 <<< 4) = .ok (.seReg x y) ∧
      ∃ t, exec (.seReg x y) s = .next t ∧
        t.pc.toNat = (if s.getV x = s.getV y then (s.pc.toNat + 2) % 65536 else s.pc.toNat) ∧
        OnlyChanges (· = .pc) s t) ∧
    (decodeWord ((0x9000 : Word) ||| x.setWidth 16 <<< 8 ||| y.setWidth 16 <<< 4) = .ok (.sneReg x y) ∧
      ∃ t, exec (.sneReg x y) s = .next t ∧
        t.pc.toNat = (if s.getV x ≠ s.getV y then (s.pc.toNat + 2) % 65536 else s.pc.toNat) ∧
        OnlyChanges (· = .pc) s t)

/-- PYC8's call and return round trip (95_test_vectors.md S7): below the full depth, a `CALL` and then a `RET` in the
state it leaves put `PC` back on the instruction following the call, at the depth before it. -/
def Obligations.CallThenReturnComesBack : Prop :=
  ∀ (nnn : Addr12) (s : State), s.sp.toNat < 16 →
    ∃ t u, exec (.call nnn) s = .next t ∧ exec .ret t = .next u ∧ u.pc = s.pc ∧ u.sp = s.sp

/-! ### Register operations (41_register_ops.md) -/

/-- R81, R83: the two loads of a register. -/
def Obligations.LoadsOfARegister : Prop :=
  (∀ (x : Reg) (nn : Byte) (s : State),
    decodeWord ((0x6000 : Word) ||| x.setWidth 16 <<< 8 ||| nn.setWidth 16) = .ok (.ldByte x nn) ∧
      ∃ t, exec (.ldByte x nn) s = .next t ∧ t.getV x = nn ∧ OnlyChanges (· = .reg x) s t) ∧
  (∀ (x y : Reg) (s : State),
    decodeWord ((0x8000 : Word) ||| x.setWidth 16 <<< 8 ||| y.setWidth 16 <<< 4) = .ok (.ldReg x y) ∧
      ∃ t, exec (.ldReg x y) s = .next t ∧ t.getV x = s.getV y ∧ OnlyChanges (· = .reg x) s t)

/-- R82: `ADD Vx, nn` wraps modulo 256 and writes no flag. -/
def Obligations.AddImmediateWrapsWithoutFlag : Prop :=
  ∀ (x : Reg) (nn : Byte) (s : State),
    decodeWord ((0x7000 : Word) ||| x.setWidth 16 <<< 8 ||| nn.setWidth 16) = .ok (.addByte x nn) ∧
      ∃ t, exec (.addByte x nn) s = .next t ∧ (t.getV x).toNat = ((s.getV x).toNat + nn.toNat) % 256 ∧
        OnlyChanges (· = .reg x) s t

/-- R84, R85, R86: OR, AND, XOR, bit by bit, with VF unchanged unless it is the destination (decision D9). -/
def Obligations.BitwiseOperations : Prop :=
  ∀ (x y : Reg) (s : State),
    (decodeWord ((0x8001 : Word) ||| x.setWidth 16 <<< 8 ||| y.setWidth 16 <<< 4) = .ok (.orReg x y) ∧
      ∃ t, exec (.orReg x y) s = .next t ∧
        (∀ b, (t.getV x).getLsbD b = ((s.getV x).getLsbD b || (s.getV y).getLsbD b)) ∧ OnlyChanges (· = .reg x) s t) ∧
    (decodeWord ((0x8002 : Word) ||| x.setWidth 16 <<< 8 ||| y.setWidth 16 <<< 4) = .ok (.andReg x y) ∧
      ∃ t, exec (.andReg x y) s = .next t ∧
        (∀ b, (t.getV x).getLsbD b = ((s.getV x).getLsbD b && (s.getV y).getLsbD b)) ∧ OnlyChanges (· = .reg x) s t) ∧
    (decodeWord ((0x8003 : Word) ||| x.setWidth 16 <<< 8 ||| y.setWidth 16 <<< 4) = .ok (.xorReg x y) ∧
      ∃ t, exec (.xorReg x y) s = .next t ∧
        (∀ b, (t.getV x).getLsbD b = ((s.getV x).getLsbD b ^^ (s.getV y).getLsbD b)) ∧ OnlyChanges (· = .reg x) s t)

/-- R87: `ADD Vx, Vy` wraps modulo 256 and VF, written last, is the carry. -/
def Obligations.AddSetsCarry : Prop :=
  ∀ (x y : Reg) (s : State),
    decodeWord ((0x8004 : Word) ||| x.setWidth 16 <<< 8 ||| y.setWidth 16 <<< 4) = .ok (.addReg x y) ∧
      ∃ t, exec (.addReg x y) s = .next t ∧
        (x ≠ 0xF → (t.getV x).toNat = ((s.getV x).toNat + (s.getV y).toNat) % 256) ∧
        t.getV 0xF = (if 255 < (s.getV x).toNat + (s.getV y).toNat then 1 else 0) ∧
        OnlyChanges (fun p => p = .reg x ∨ p = .reg 0xF) s t

/-- R88, R90: the two subtractions wrap modulo 256 and VF, written last, is 1 exactly when there is no borrow. -/
def Obligations.SubtractionsSetNoBorrow : Prop :=
  ∀ (x y : Reg) (s : State),
    (decodeWord ((0x8005 : Word) ||| x.setWidth 16 <<< 8 ||| y.setWidth 16 <<< 4) = .ok (.sub x y) ∧
      ∃ t, exec (.sub x y) s = .next t ∧
        (x ≠ 0xF → ((t.getV x).toNat : Int) = ((s.getV x).toNat - (s.getV y).toNat : Int) % 256) ∧
        t.getV 0xF = (if (s.getV y).toNat ≤ (s.getV x).toNat then 1 else 0) ∧
        OnlyChanges (fun p => p = .reg x ∨ p = .reg 0xF) s t) ∧
    (decodeWord ((0x8007 : Word) ||| x.setWidth 16 <<< 8 ||| y.setWidth 16 <<< 4) = .ok (.subn x y) ∧
      ∃ t, exec (.subn x y) s = .next t ∧
        (x ≠ 0xF → ((t.getV x).toNat : Int) = ((s.getV y).toNat - (s.getV x).toNat : Int) % 256) ∧
        t.getV 0xF = (if (s.getV x).toNat ≤ (s.getV y).toNat then 1 else 0) ∧
        OnlyChanges (fun p => p = .reg x ∨ p = .reg 0xF) s t)

/-- R89, R91: the two shifts by one place of `V[y]` if `SHIFT_SOURCE_VY`, else of `V[x]` (decision D7,
notes/assumptions/1.md); VF, written last, is the bit shifted out. -/
def Obligations.ShiftsSetTheBitShiftedOut : Prop :=
  ∀ (x y : Reg) (s : State) (src : Byte), src = (if s.params.shiftSourceVy = true then s.getV y else s.getV x) →
    (decodeWord ((0x8006 : Word) ||| x.setWidth 16 <<< 8 ||| y.setWidth 16 <<< 4) = .ok (.shr x y) ∧
      ∃ t, exec (.shr x y) s = .next t ∧ (x ≠ 0xF → (t.getV x).toNat = src.toNat / 2) ∧
        (t.getV 0xF).toNat = src.toNat % 2 ∧ OnlyChanges (fun p => p = .reg x ∨ p = .reg 0xF) s t) ∧
    (decodeWord ((0x800E : Word) ||| x.setWidth 16 <<< 8 ||| y.setWidth 16 <<< 4) = .ok (.shl x y) ∧
      ∃ t, exec (.shl x y) s = .next t ∧ (x ≠ 0xF → (t.getV x).toNat = src.toNat * 2 % 256) ∧
        (t.getV 0xF).toNat = src.toNat / 128 ∧ OnlyChanges (fun p => p = .reg x ∨ p = .reg 0xF) s t)

/-- R11: VF is written by the six instructions that define a flag result, each with 0x00 or 0x01, and by an instruction
whose named destination it is (decision D9); every other register changes only in an instruction that names it. -/
def Obligations.RegistersChangeOnlyWhenNamedOrFlag : Prop :=
  ∀ (i : Instr) (s t : State), exec i s = .next t →
    (setsFlag i = true → t.getV 0xF = 0 ∨ t.getV 0xF = 1) ∧
    (∀ r : Reg, namesDest i r = false → (setsFlag i = false ∨ r ≠ 0xF) → t.getV r = s.getV r)

/-! ### Index and memory (42_index_memory.md) -/

/-- R95, R96, R97: the three writes of `I`; none checks the address, `ADD I` wraps modulo 65536 with no flag (decisions
D9, D10), and `LD F` takes the low nibble (decision D13) and the glyphs of the parameters (notes/assumptions/1.md). -/
def Obligations.WritesOfTheIndexRegister : Prop :=
  (∀ (nnn : Addr12) (s : State),
    decodeWord ((0xA000 : Word) ||| nnn.setWidth 16) = .ok (.ldI nnn) ∧
      ∃ t, exec (.ldI nnn) s = .next t ∧ t.i.toNat = nnn.toNat ∧ OnlyChanges (· = .index) s t) ∧
  (∀ (x : Reg) (s : State),
    decodeWord ((0xF01E : Word) ||| x.setWidth 16 <<< 8) = .ok (.addI x) ∧
      ∃ t, exec (.addI x) s = .next t ∧ t.i.toNat = (s.i.toNat + (s.getV x).toNat) % 65536 ∧
        OnlyChanges (· = .index) s t) ∧
  (∀ (x : Reg) (s : State),
    decodeWord ((0xF029 : Word) ||| x.setWidth 16 <<< 8) = .ok (.ldF x) ∧
      ∃ t, exec (.ldF x) s = .next t ∧
        (s.params.Legal → t.i.toNat = s.params.fontBase + s.params.fontStride * ((s.getV x).toNat % 16)) ∧
        OnlyChanges (· = .index) s t)

/-- R98: `LD B, Vx` stores hundreds, tens and ones at `I`, `I + 1`, `I + 2` (decision D18), or faults on the whole
range. -/
def Obligations.BcdStoresThreeDigits : Prop :=
  ∀ (x : Reg) (s : State),
    decodeWord ((0xF033 : Word) ||| x.setWidth 16 <<< 8) = .ok (.ldB x) ∧
    (s.params.memSize ≤ s.baseAddr + 2 → exec (.ldB x) s = .fault .addressFault) ∧
    (s.baseAddr + 2 < s.params.memSize → ∃ t, exec (.ldB x) s = .next t ∧
      (t.peek s.baseAddr).toNat = (s.getV x).toNat / 100 ∧
      (t.peek (s.baseAddr + 1)).toNat = (s.getV x).toNat / 10 % 10 ∧
      (t.peek (s.baseAddr + 2)).toNat = (s.getV x).toNat % 10 ∧
      OnlyChanges (fun p => ∃ a, s.baseAddr ≤ a ∧ a ≤ s.baseAddr + 2 ∧ p = .byte a) s t)

/-- R99: `LD [I], Vx` stores `V[0]`..`V[x]` at ascending addresses from `I`, which stays (decision D11), or faults on
the whole range. -/
def Obligations.BulkStoreWritesTheRegisters : Prop :=
  ∀ (x : Reg) (s : State),
    decodeWord ((0xF055 : Word) ||| x.setWidth 16 <<< 8) = .ok (.storeRegs x) ∧
    (s.params.memSize ≤ s.baseAddr + x.toNat → exec (.storeRegs x) s = .fault .addressFault) ∧
    (s.baseAddr + x.toNat < s.params.memSize → ∃ t, exec (.storeRegs x) s = .next t ∧
      (∀ k : Reg, k.toNat ≤ x.toNat → t.peek (s.baseAddr + k.toNat) = s.getV k) ∧
      OnlyChanges (fun p => ∃ a, s.baseAddr ≤ a ∧ a ≤ s.baseAddr + x.toNat ∧ p = .byte a) s t)

/-- R100: `LD Vx, [I]` loads `V[0]`..`V[x]` from ascending addresses from `I`, which stays (decision D11), or faults on
the whole range. -/
def Obligations.BulkLoadReadsTheRegisters : Prop :=
  ∀ (x : Reg) (s : State),
    decodeWord ((0xF065 : Word) ||| x.setWidth 16 <<< 8) = .ok (.loadRegs x) ∧
    (s.params.memSize ≤ s.baseAddr + x.toNat → exec (.loadRegs x) s = .fault .addressFault) ∧
    (s.baseAddr + x.toNat < s.params.memSize → ∃ t, exec (.loadRegs x) s = .next t ∧
      (∀ k : Reg, k.toNat ≤ x.toNat → t.getV k = s.peek (s.baseAddr + k.toNat)) ∧
      OnlyChanges (fun p => ∃ k : Reg, k.toNat ≤ x.toNat ∧ p = .reg k) s t)

/-- R41 (which the spec derives from R32, R39 and R54): the fetch after a completing `LD [I], Vx` or `LD B, Vx` reads at
`PC` and `PC + 1`, wherever the stored range lies, the byte stored there when the range holds that address, and the byte
that was there otherwise. -/
def Obligations.StoresAreSeenByTheNextFetch : Prop :=
  (∀ (x : Reg) (s : State), s.baseAddr + x.toNat < s.params.memSize → s.pc.toNat + 1 < s.params.memSize →
    ∃ t hi lo, exec (.storeRegs x) s = .next t ∧ t.fetch = .ok (wordOfBytes hi lo) ∧
      (∀ k : Reg, k.toNat ≤ x.toNat → s.pc.toNat = s.baseAddr + k.toNat → hi = s.getV k) ∧
      (∀ k : Reg, k.toNat ≤ x.toNat → s.pc.toNat + 1 = s.baseAddr + k.toNat → lo = s.getV k) ∧
      (s.pc.toNat < s.baseAddr ∨ s.baseAddr + x.toNat < s.pc.toNat → hi = s.peek s.pc.toNat) ∧
      (s.pc.toNat + 1 < s.baseAddr ∨ s.baseAddr + x.toNat < s.pc.toNat + 1 → lo = s.peek (s.pc.toNat + 1))) ∧
  (∀ (x : Reg) (s : State), s.baseAddr + 2 < s.params.memSize → s.pc.toNat + 1 < s.params.memSize →
    ∃ t hi lo, exec (.ldB x) s = .next t ∧ t.fetch = .ok (wordOfBytes hi lo) ∧
      (s.pc.toNat = s.baseAddr → hi.toNat = (s.getV x).toNat / 100) ∧
      (s.pc.toNat = s.baseAddr + 1 → hi.toNat = (s.getV x).toNat / 10 % 10) ∧
      (s.pc.toNat = s.baseAddr + 2 → hi.toNat = (s.getV x).toNat % 10) ∧
      (s.pc.toNat + 1 = s.baseAddr → lo.toNat = (s.getV x).toNat / 100) ∧
      (s.pc.toNat + 1 = s.baseAddr + 1 → lo.toNat = (s.getV x).toNat / 10 % 10) ∧
      (s.pc.toNat + 1 = s.baseAddr + 2 → lo.toNat = (s.getV x).toNat % 10) ∧
      (s.pc.toNat < s.baseAddr ∨ s.baseAddr + 2 < s.pc.toNat → hi = s.peek s.pc.toNat) ∧
      (s.pc.toNat + 1 < s.baseAddr ∨ s.baseAddr + 2 < s.pc.toNat + 1 → lo = s.peek (s.pc.toNat + 1)))

/-- R12, R13, R14, R15, R18: which instructions write `I`, `PC`, the stack and memory; every other leaves them. -/
def Obligations.IndexPcStackAndMemoryChangeOnlyInTheirInstructions : Prop :=
  ∀ (i : Instr) (s t : State), exec i s = .next t →
    (t.i ≠ s.i → (∃ nnn, i = .ldI nnn) ∨ (∃ x, i = .addI x) ∨ ∃ x, i = .ldF x) ∧
    (t.pc ≠ s.pc → (∃ nnn, i = .jp nnn) ∨ (∃ nnn, i = .jpV0 nnn) ∨ (∃ nnn, i = .call nnn) ∨ i = .ret ∨
      (∃ x nn, i = .seByte x nn) ∨ (∃ x nn, i = .sneByte x nn) ∨ (∃ x y, i = .seReg x y) ∨ (∃ x y, i = .sneReg x y) ∨
      (∃ x, i = .skp x) ∨ (∃ x, i = .sknp x) ∨ ∃ x, i = .ldVxK x) ∧
    (t.sp ≠ s.sp → ((∃ nnn, i = .call nnn) ∧ t.sp.toNat = s.sp.toNat + 1) ∨ (i = .ret ∧ t.sp.toNat + 1 = s.sp.toNat)) ∧
    (t.stack ≠ s.stack → ∃ nnn, i = .call nnn) ∧
    ((∃ a, t.peek a ≠ s.peek a) → (∃ x, i = .ldB x) ∨ ∃ x, i = .storeRegs x)

/-- R32, R35, R45 through the instructions: whichever instruction runs, the bytes that change are those of its own
range from `I`: three for `LD B`, `x + 1` for `LD [I]`, none for any other. -/
def Obligations.OnlyTheStoredRangeChanges : Prop :=
  ∀ (i : Instr) (s t : State), exec i s = .next t → ∀ a,
    (∀ x, i = .ldB x → a < s.baseAddr ∨ s.baseAddr + 3 ≤ a) →
    (∀ x, i = .storeRegs x → a < s.baseAddr ∨ s.baseAddr + x.toNat + 1 ≤ a) → t.peek a = s.peek a

/-- The model's own representation of `MEM` (notes/assumptions/9.md): two canonical memories of the same engine whose every byte reads the same are the
same list. -/
def Obligations.CanonicalMemoriesThatReadAlikeAreEqual : Prop :=
  ∀ (p : Params) (m m' : Memory), m.wf p = true → m'.wf p = true → (∀ a, m.read p a = m'.read p a) → m = m'

/-! ### Random (43_random.md) -/

/-- R105: `RND Vx, nn` gives the step's random input masked by `nn`. -/
def Obligations.RandomByteIsMasked : Prop :=
  ∀ (x : Reg) (nn rnd : Byte) (s : State), s.rnd = rnd →
    decodeWord ((0xC000 : Word) ||| x.setWidth 16 <<< 8 ||| nn.setWidth 16) = .ok (.rnd x nn) ∧
      ∃ t, exec (.rnd x nn) s = .next t ∧ t.getV x = rnd &&& nn ∧ OnlyChanges (· = .reg x) s t

/-- R106 (decision D19, notes/assumptions/2.md): the random input is sampled only by a step that executes `RND`: every
other instruction does the same whatever it is. -/
def Obligations.OnlyRndReadsTheRandomInput : Prop :=
  ∀ (i : Instr) (s : State) (r : Byte), (∀ x nn, i ≠ .rnd x nn) →
    (∀ t, exec i s = .next t → exec i (s.withRnd r) = .next (t.withRnd r)) ∧
    (∀ k, exec i s = .fault k → exec i (s.withRnd r) = .fault k)

/-! ### Timers (44_timers.md, 60_exceptions.md section 5) -/

/-- R107, R108, R109: the three timer instructions; the output `SoundOn` is 1 from a write of `ST` on unless 0 was
written. -/
def Obligations.TimerInstructions : Prop :=
  ∀ (x : Reg) (s : State),
    (decodeWord ((0xF007 : Word) ||| x.setWidth 16 <<< 8) = .ok (.ldVxDt x) ∧
      ∃ t, exec (.ldVxDt x) s = .next t ∧ t.getV x = s.dt ∧ OnlyChanges (· = .reg x) s t) ∧
    (decodeWord ((0xF015 : Word) ||| x.setWidth 16 <<< 8) = .ok (.ldDtVx x) ∧
      ∃ t, exec (.ldDtVx x) s = .next t ∧ t.dt = s.getV x ∧ OnlyChanges (· = .delay) s t) ∧
    (decodeWord ((0xF018 : Word) ||| x.setWidth 16 <<< 8) = .ok (.ldStVx x) ∧
      ∃ t, exec (.ldStVx x) s = .next t ∧ t.st = s.getV x ∧ (t.soundOn = true ↔ s.getV x ≠ 0) ∧
        OnlyChanges (· = .sound) s t)

/-- R110: no step other than `LD DT, Vx` and `LD ST, Vx` changes a timer. -/
def Obligations.OnlyTimerWritesChangeTimersInAStep : Prop :=
  ∀ (rnd : Byte) (s t : State), stepWith rnd s = .next t →
    (t.dt ≠ s.dt → ∃ op x, s.fetch = .ok op ∧ decodeWord op = .ok (.ldDtVx x)) ∧
    (t.st ≠ s.st → ∃ op x, s.fetch = .ok op ∧ decodeWord op = .ok (.ldStVx x))

/-- R134: `Tick` decrements each timer that is above 0 by 1, in every state (decision D29), and changes nothing else. -/
def Obligations.TickCountsBothTimersDown : Prop :=
  ∀ s : State, (event .tick s).dt.toNat = s.dt.toNat - 1 ∧ (event .tick s).st.toNat = s.st.toNat - 1 ∧
    OnlyChanges (fun p => p = .delay ∨ p = .sound) s (event .tick s)

/-- R16, R17, R134 (decision D29) over a run: `n` ticks take each timer down by `n`, never below 0. -/
def Obligations.TicksReachZeroAndStay : Prop :=
  ∀ (n : Nat) (s : State), (runEvents (List.replicate n .tick) s).dt.toNat = s.dt.toNat - n ∧
    (runEvents (List.replicate n .tick) s).st.toNat = s.st.toNat - n

/-! ### Input (45_input.md) -/

/-- R111, R112, R114: the two key skips test the latch of the key whose number is the register's low nibble (decision
D14). -/
def Obligations.KeySkipsTestTheLatch : Prop :=
  ∀ (x : Reg) (s : State),
    (decodeWord ((0xE09E : Word) ||| x.setWidth 16 <<< 8) = .ok (.skp x) ∧
      ∃ t, exec (.skp x) s = .next t ∧
        t.pc.toNat = (if s.keys[(s.getV x).toNat % 16]? = some true then (s.pc.toNat + 2) % 65536 else s.pc.toNat) ∧
        OnlyChanges (· = .pc) s t) ∧
    (decodeWord ((0xE0A1 : Word) ||| x.setWidth 16 <<< 8) = .ok (.sknp x) ∧
      ∃ t, exec (.sknp x) s = .next t ∧
        t.pc.toNat = (if s.keys[(s.getV x).toNat % 16]? = some false then (s.pc.toNat + 2) % 65536 else s.pc.toNat) ∧
        OnlyChanges (· = .pc) s t)

/-- R113 (decision D15): the key wait. Its first step sets `WAIT`, keeps the register's number and puts `PC` back on the instruction;
each later step completes it with the least key that is down, or changes nothing. -/
def Obligations.KeyWaitSpansSteps : Prop :=
  (∀ (x : Reg) (s : State),
    decodeWord ((0xF00A : Word) ||| x.setWidth 16 <<< 8) = .ok (.ldVxK x) ∧
      ∃ t, exec (.ldVxK x) s = .next t ∧ t.wait = true ∧ t.waitX = x ∧
        t.pc.toNat = (s.pc.toNat + 65534) % 65536 ∧
        OnlyChanges (fun p => p = .wait ∨ p = .waitX ∨ p = .pc) s t) ∧
  (∀ (rnd : Byte) (s : State), s.faultKind = none → s.wait = true →
    ((∀ k : Nibble, s.key k = false) → stepWith rnd s = .next s) ∧
    (∀ k0 : Nibble, s.key k0 = true → (∀ k : Nibble, k.toNat < k0.toNat → s.key k = false) →
      ∃ t, stepWith rnd s = .next t ∧ (t.getV s.waitX).toNat = k0.toNat ∧
        t.pc.toNat = (s.pc.toNat + 2) % 65536 ∧ t.wait = false ∧
        OnlyChanges (fun p => p = .reg s.waitX ∨ p = .pc ∨ p = .wait) s t))

/-- R115: while the wait pends a step faults in no state, does not access memory, and leaves every register but
`V[WAITX]` and `PC` unchanged. -/
def Obligations.WaitingStepIsIdle : Prop :=
  ∀ (rnd : Byte) (s : State), s.faultKind = none → s.wait = true →
    ∃ t, stepWith rnd s = .next t ∧ OnlyChanges (fun p => p = .reg s.waitX ∨ p = .pc ∨ p = .wait) s t ∧
      ∀ m, stepWith rnd (s.withMem m) = .next (t.withMem m)

/-- PYC8's key-wait scenario (95_test_vectors.md S10): with no key down, any number of steps and ticks leaves `PC`,
`WAIT` and every register where they were. -/
def Obligations.WaitWithoutAKeyNeverAdvances : Prop :=
  ∀ (es : List Event) (s : State), s.faultKind = none → s.wait = true → (∀ k : Nibble, s.key k = false) →
    (∀ e ∈ es, e = .tick ∨ ∃ rnd, e = .step rnd) →
    OnlyChanges (fun p => p = .delay ∨ p = .sound) s (runEvents es s)

/-- R138 (decision D31, the key number has 4 bits): `SetKey(k, v)` writes one bit of the latch, in every state, and
changes nothing else. -/
def Obligations.SetKeyWritesOneKey : Prop :=
  ∀ (k : Nibble) (v : Bool) (s : State),
    (event (.setKey k v) s).key k = v ∧ OnlyChanges (· = .key k) s (event (.setKey k v) s)

/-- R20: the keys are read-only from the core: no step and no load changes one. -/
def Obligations.CoreNeverWritesKeys : Prop :=
  ∀ (s t : State), (∀ rnd, stepWith rnd s = .next t → t.keys = s.keys) ∧
    (∀ bytes, loadEvent bytes s = .next t → t.keys = s.keys)

/-! ### Display (46_display.md) -/

/-- R117: `CLS` clears every pixel and changes nothing else, VF included. -/
def Obligations.ClearBlanksThePicture : Prop :=
  ∀ s : State, decodeWord 0x00E0 = .ok .cls ∧ ∃ t, exec .cls s = .next t ∧ (∀ y x, t.pixel y x = false) ∧
    OnlyChanges (fun p => ∃ y x, p = .pixel y x) s t

/-- R116, R118 (decision D17): `DRW` inverts exactly the pixels its sprite covers, wrapping each coordinate, sets VF to 1 exactly when a
covered pixel was set, and faults exactly when a sprite byte lies outside memory. -/
def Obligations.DrawInvertsTheCoveredPixels : Prop :=
  ∀ (x y : Reg) (n : Nat) (s : State), n ≤ 15 →
    decodeWord ((0xD000 : Word) ||| x.setWidth 16 <<< 8 ||| y.setWidth 16 <<< 4 ||| BitVec.ofNat 16 n) = .ok (.drw x y n) ∧
    (0 < n → s.params.memSize ≤ s.baseAddr + n - 1 → exec (.drw x y n) s = .fault .addressFault) ∧
    ((n = 0 ∨ s.baseAddr + n - 1 < s.params.memSize) → ∃ t, exec (.drw x y n) s = .next t ∧
      (∀ py px, spriteCovers (s.getV x) (s.getV y) (s.sprite n) py px → t.pixel py px = !s.pixel py px) ∧
      (∀ py px, ¬ spriteCovers (s.getV x) (s.getV y) (s.sprite n) py px → t.pixel py px = s.pixel py px) ∧
      ((∃ py px, spriteCovers (s.getV x) (s.getV y) (s.sprite n) py px ∧ s.pixel py px = true) → t.getV 0xF = 1) ∧
      ((∀ py px, spriteCovers (s.getV x) (s.getV y) (s.sprite n) py px → s.pixel py px = false) → t.getV 0xF = 0) ∧
      OnlyChanges (fun p => p = .reg 0xF ∨ ∃ py px, p = .pixel py px) s t)

/-- PYC8's round trip of the XOR draw (R118's corner case, 95_test_vectors.md S4): the same draw again restores the
picture, and reports a collision when the sprite has a set bit and the covered pixels were 0 before. -/
def Obligations.DrawingTwiceRestoresThePicture : Prop :=
  ∀ (x y : Reg) (n : Nat) (s t : State), n ≤ 15 → x ≠ 0xF → y ≠ 0xF → exec (.drw x y n) s = .next t →
    ∃ u, exec (.drw x y n) t = .next u ∧ (∀ py px, u.pixel py px = s.pixel py px) ∧
      ((∃ b ∈ s.sprite n, b ≠ 0) →
        (∀ py px, spriteCovers (s.getV x) (s.getV y) (s.sprite n) py px → s.pixel py px = false) → u.getV 0xF = 1)

/-- R119: the picture is changed by `CLS` and `DRW` alone: not by another step, `Tick`, `SetKey` or `Load`, and by
`Reset` only to blank it. -/
def Obligations.OnlyDisplayInstructionsChangeThePicture : Prop :=
  ∀ (s t : State) (y : Fin 32) (x : Fin 64),
    (∀ rnd, stepWith rnd s = .next t → t.pixel y x ≠ s.pixel y x →
      ∃ op, s.fetch = .ok op ∧ (decodeWord op = .ok .cls ∨ ∃ vx vy n, decodeWord op = .ok (.drw vx vy n))) ∧
    (∀ bytes, loadEvent bytes s = .next t → t.pixel y x = s.pixel y x) ∧
    (event .tick s).pixel y x = s.pixel y x ∧
    (∀ k v, (event (.setKey k v) s).pixel y x = s.pixel y x) ∧
    (event .reset s).pixel y x = false

/-! ### Reset, load and faults (70_reset_and_hazards.md, 20_memory.md section 6, 60_exceptions.md section 2) -/

/-- R24, R146: `Reset` puts every piece of state at its reset value, whatever the state was before (conflict C4 for `PC`,
decisions D12 and D20 for the font, `KEYS`, `WAIT`, `WAITX` and `FAULT_KIND`; notes/assumptions/1.md). -/
def Obligations.ResetLeavesTheResetValues : Prop :=
  ∀ s : State, ∃ t, t = event .reset s ∧ (∀ r, t.getV r = 0) ∧ t.i = 0 ∧ t.pc = 0x200 ∧ t.sp.toNat = 0 ∧
    (∀ j : Fin 16, t.stack[j.val] = 0) ∧ t.dt = 0 ∧ t.st = 0 ∧
    (∀ a, (s.params.fontEnable = true ∧ s.params.fontBase ≤ a ∧ a < s.params.fontBase + s.params.font.length →
        s.params.font[a - s.params.fontBase]? = some (t.peek a)) ∧
      (¬(s.params.fontEnable = true ∧ s.params.fontBase ≤ a ∧ a < s.params.fontBase + s.params.font.length) →
        t.peek a = 0)) ∧
    (∀ y x, t.pixel y x = false) ∧ (∀ k, t.key k = false) ∧ t.wait = false ∧ t.waitX = 0 ∧ t.faultCode = 0 ∧
    t.params = s.params

/-- R37 (decision D12): the default font: glyph `d` lies at `5 * d` after reset, with the bytes of the rule's table. -/
def Obligations.DefaultFontLiesAtZero : Prop :=
  (List.range 80).map State.reset.peek =
    [0xF0, 0x90, 0x90, 0x90, 0xF0, 0x20, 0x60, 0x20, 0x20, 0x70, 0xF0, 0x10, 0xF0, 0x80, 0xF0, 0xF0, 0x10, 0xF0, 0x10, 0xF0] ++
    [0x90, 0x90, 0xF0, 0x10, 0x10, 0xF0, 0x80, 0xF0, 0x10, 0xF0, 0xF0, 0x80, 0xF0, 0x90, 0xF0, 0xF0, 0x10, 0x20, 0x40, 0x40] ++
    [0xF0, 0x90, 0xF0, 0x90, 0xF0, 0xF0, 0x90, 0xF0, 0x10, 0xF0, 0xF0, 0x90, 0xF0, 0x90, 0x90, 0xE0, 0x90, 0xE0, 0x90, 0xE0] ++
    [0xF0, 0x80, 0x80, 0x80, 0xF0, 0xE0, 0x90, 0x90, 0x90, 0xE0, 0xF0, 0x80, 0xF0, 0x80, 0xF0, 0xF0, 0x80, 0xF0, 0x80, 0x80]

/-- R42 (decision D25): `Load` on an engine that is not faulted copies the image to 0x200 and changes nothing else, or raises
`RomTooLarge` and latches its code 5. -/
def Obligations.LoadCopiesTheImage : Prop :=
  ∀ (s : State) (bytes : List Byte), s.faultKind = none →
    (s.params.memSize < 0x200 + bytes.length →
      loadEvent bytes s = .fault .romTooLarge ∧ (event (.load bytes) s).faultCode = 5) ∧
    (0x200 + bytes.length ≤ s.params.memSize →
      ∃ t, loadEvent bytes s = .next t ∧ event (.load bytes) s = t ∧
        (∀ k (h : k < bytes.length), t.peek (0x200 + k) = bytes[k]) ∧
        OnlyChanges (fun p => ∃ a, 0x200 ≤ a ∧ a < 0x200 + bytes.length ∧ p = .byte a) s t)

/-- R147: the entry point is the constant 0x200: after `Reset` and a `Load` that fits, the fetch of the first `Step` is
the word at `MEM[0x200..0x201]`, which is the first word of the image when the image has one. -/
def Obligations.FirstFetchIsTheFirstLoadedWord : Prop :=
  ∀ (s : State) (bytes : List Byte), 0x202 ≤ s.params.memSize → 0x200 + bytes.length ≤ s.params.memSize →
    ∃ t, t = runEvents [.reset, .load bytes] s ∧ t.pc = 0x200 ∧
      t.fetch = .ok (wordOfBytes (t.peek 0x200) (t.peek 0x201)) ∧
      ∀ hi lo rest, bytes = hi :: lo :: rest → t.fetch = .ok (wordOfBytes hi lo)

/-- R148's derived sentence: a `Step` before any `Load` fetches 0x0000 from zeroed memory and raises `InvalidOpcode`,
under every legal setting of the parameters (notes/assumptions/1.md). -/
def Obligations.StepWithoutLoadIsInvalidOpcode : Prop :=
  ∀ (p : Params) (rnd : Byte), p.Legal →
    (State.resetWith p).fetch = .ok 0 ∧ stepWith rnd (State.resetWith p) = .fault .invalidOpcode

/-- R129, R130, R22 (decisions D21, D22; notes/assumptions/4.md): a `Step` or a `Load` that faults latches its kind;
until a `Reset` every later `Step` and `Load` is ignored and whatever events come the latch keeps the kind of the first
fault; `Reset` clears it. -/
def Obligations.FaultStaysLatchedUntilReset : Prop :=
  ∀ (s : State) (e : Event) (k : Fault), s.faultKind = none →
    ((∃ rnd, e = .step rnd ∧ stepWith rnd s = .fault k) ∨ (∃ bytes, e = .load bytes ∧ loadEvent bytes s = .fault k)) →
    (event e s).faultCode = k.code ∧
    (∀ es : List Event, (∀ e' ∈ es, e' ≠ .reset) →
      (runEvents es (event e s)).faultKind = some k ∧
      (∀ r, event (.step r) (runEvents es (event e s)) = runEvents es (event e s)) ∧
      (∀ b, event (.load b) (runEvents es (event e s)) = runEvents es (event e s)) ∧
      (event .reset (runEvents es (event e s))).faultCode = 0)

/-! ### Invariants -/

/-- The model's invariant at reset: canonical memory (notes/assumptions/9.md), no key wait out of place (R21), and a
depth of at most 16 in `SP` (R14). -/
def Obligations.ResetMeetsTheInvariant : Prop :=
  State.reset.Inv ∧ ∀ p, (State.resetWith p).Inv ∧ (Session.start p).Inv

/-- R14, R21 (decision D15) and the canonical form (notes/assumptions/9.md): every step keeps the memory canonical, `SP`
at most 16 and, while `WAIT = 1`, `PC` on the `LD Vx, K` word whose register is `WAITX`; whatever the random input, and
on the machine's own `step`. -/
def Obligations.EveryStepKeepsTheInvariant : Prop :=
  ∀ (s t : State), s.Inv → ((∃ rnd, stepWith rnd s = .next t) ∨ step s = .next t) → t.Inv

/-- Every event the host's protocol allows (D25 and U10, notes/assumptions/6.md) keeps the invariant of the session
(R14, R21, and the canonical form of notes/assumptions/9.md), from every session that meets it, and the parameters (R4,
notes/assumptions/1.md; kept through a fault by notes/assumptions/4.md); so every run from reset, which meets it, ends in
a session that does, under the parameters it started with. -/
def Obligations.RunsUnderTheProtocolMeetTheInvariant : Prop :=
  (∀ (h h2 : Session) (e : Event), h.Inv → h.event e = some h2 → h2.Inv ∧ h2.engine.params = h.engine.params) ∧
  (∀ (p : Params) (es : List Event) (h : Session), (Session.start p).run es = some h →
    h.Inv ∧ h.engine.params = p)

/-- D25 and U10 (notes/assumptions/6.md): once a `Load` or a `Step` has come, and whatever events other than `Reset`
follow, a `Load` has no move. -/
def Obligations.LateLoadHasNoMove : Prop :=
  ∀ (h h1 h2 : Session) (e : Event) (es : List Event) (bytes : List Byte),
    ((∃ b, e = .load b) ∨ ∃ r, e = .step r) → (∀ e' ∈ es, e' ≠ .reset) →
    h.event e = some h1 → h1.run es = some h2 → h2.event (.load bytes) = none
end

