-- ==== Sys2Proof/Laws/Decode.lean ====
section
/-!
SUPPORT. The fields of the words that the formats build (30_encoding.md rules R51, R52), and the bytes of a word.
-/

namespace Sys2Proof

theorem fmtA_toNat (f : Nibble) (a : Addr12) : (fmtA f a).toNat = f.toNat * 4096 + a.toNat := by
  simp only [fmtA, BitVec.toNat_append]
  rw [← Nat.shiftLeft_add_eq_or_of_lt a.isLt, Nat.shiftLeft_eq]

theorem fmtXB_toNat (f : Nibble) (x : Reg) (nn : Byte) :
    (fmtXB f x nn).toNat = f.toNat * 4096 + x.toNat * 256 + nn.toNat := by
  simp only [fmtXB, BitVec.toNat_append]
  rw [← Nat.shiftLeft_add_eq_or_of_lt x.isLt, ← Nat.shiftLeft_add_eq_or_of_lt nn.isLt]
  simp only [Nat.shiftLeft_eq]; omega

theorem fmtXYN_toNat (f : Nibble) (x y : Reg) (n : Nibble) :
    (fmtXYN f x y n).toNat = f.toNat * 4096 + x.toNat * 256 + y.toNat * 16 + n.toNat := by
  simp only [fmtXYN, BitVec.toNat_append]
  rw [← Nat.shiftLeft_add_eq_or_of_lt x.isLt, ← Nat.shiftLeft_add_eq_or_of_lt y.isLt,
    ← Nat.shiftLeft_add_eq_or_of_lt n.isLt]
  simp only [Nat.shiftLeft_eq]; omega

theorem opFam_toNat (w : Word) : (opFam w).toNat = w.toNat / 4096 := by
  have := w.isLt
  simp [opFam, Nat.shiftRight_eq_div_pow]; omega

theorem opX_toNat (w : Word) : (opX w).toNat = w.toNat / 256 % 16 := by
  simp [opX, Nat.shiftRight_eq_div_pow]

theorem opY_toNat (w : Word) : (opY w).toNat = w.toNat / 16 % 16 := by
  simp [opY, Nat.shiftRight_eq_div_pow]

theorem opN_toNat (w : Word) : (opN w).toNat = w.toNat % 16 := by
  simp [opN]

theorem opNN_toNat (w : Word) : (opNN w).toNat = w.toNat % 256 := by
  simp [opNN]

theorem opNNN_toNat (w : Word) : (opNNN w).toNat = w.toNat % 4096 := by
  simp [opNNN]

@[simp] theorem opFam_fmtA (f : Nibble) (a : Addr12) : opFam (fmtA f a) = f := by
  have := a.isLt
  apply BitVec.eq_of_toNat_eq; rw [opFam_toNat, fmtA_toNat]; omega

@[simp] theorem opNNN_fmtA (f : Nibble) (a : Addr12) : opNNN (fmtA f a) = a := by
  have := a.isLt
  apply BitVec.eq_of_toNat_eq; rw [opNNN_toNat, fmtA_toNat]; omega

@[simp] theorem opFam_fmtXB (f : Nibble) (x : Reg) (nn : Byte) : opFam (fmtXB f x nn) = f := by
  have := x.isLt; have := nn.isLt
  apply BitVec.eq_of_toNat_eq; rw [opFam_toNat, fmtXB_toNat]; omega

@[simp] theorem opX_fmtXB (f : Nibble) (x : Reg) (nn : Byte) : opX (fmtXB f x nn) = x := by
  have := x.isLt; have := nn.isLt
  apply BitVec.eq_of_toNat_eq; rw [opX_toNat, fmtXB_toNat]; omega

@[simp] theorem opNN_fmtXB (f : Nibble) (x : Reg) (nn : Byte) : opNN (fmtXB f x nn) = nn := by
  have := nn.isLt
  apply BitVec.eq_of_toNat_eq; rw [opNN_toNat, fmtXB_toNat]; omega

@[simp] theorem opFam_fmtXYN (f : Nibble) (x y : Reg) (n : Nibble) : opFam (fmtXYN f x y n) = f := by
  have := x.isLt; have := y.isLt; have := n.isLt
  apply BitVec.eq_of_toNat_eq; rw [opFam_toNat, fmtXYN_toNat]; omega

@[simp] theorem opX_fmtXYN (f : Nibble) (x y : Reg) (n : Nibble) : opX (fmtXYN f x y n) = x := by
  have := x.isLt; have := y.isLt; have := n.isLt
  apply BitVec.eq_of_toNat_eq; rw [opX_toNat, fmtXYN_toNat]; omega

@[simp] theorem opY_fmtXYN (f : Nibble) (x y : Reg) (n : Nibble) : opY (fmtXYN f x y n) = y := by
  have := y.isLt; have := n.isLt
  apply BitVec.eq_of_toNat_eq; rw [opY_toNat, fmtXYN_toNat]; omega

@[simp] theorem opN_fmtXYN (f : Nibble) (x y : Reg) (n : Nibble) : opN (fmtXYN f x y n) = n := by
  have := n.isLt
  apply BitVec.eq_of_toNat_eq; rw [opN_toNat, fmtXYN_toNat]; omega

/-- Every word is the word of its family and address. -/
theorem fmtA_fields (w : Word) : fmtA (opFam w) (opNNN w) = w := by
  apply BitVec.eq_of_toNat_eq; rw [fmtA_toNat, opFam_toNat, opNNN_toNat]; omega

/-- Every word is the word of its family, register and byte. -/
theorem fmtXB_fields (w : Word) : fmtXB (opFam w) (opX w) (opNN w) = w := by
  apply BitVec.eq_of_toNat_eq; rw [fmtXB_toNat, opFam_toNat, opX_toNat, opNN_toNat]; omega

/-- Every word is the word of its family, two registers and nibble. -/
theorem fmtXYN_fields (w : Word) : fmtXYN (opFam w) (opX w) (opY w) (opN w) = w := by
  apply BitVec.eq_of_toNat_eq; rw [fmtXYN_toNat, opFam_toNat, opX_toNat, opY_toNat, opN_toNat]; omega

theorem wordOfBytes_toNat (hi lo : Byte) : (wordOfBytes hi lo).toNat = hi.toNat * 256 + lo.toNat := by
  simp only [wordOfBytes, BitVec.toNat_append]
  rw [← Nat.shiftLeft_add_eq_or_of_lt lo.isLt]
  simp only [Nat.shiftLeft_eq]

/-- The bytes of a word make the word again. -/
@[simp] theorem wordOfBytes_bytes (w : Word) : wordOfBytes (w.extractLsb' 8 8) (w.extractLsb' 0 8) = w := by
  have := w.isLt
  apply BitVec.eq_of_toNat_eq
  rw [wordOfBytes_toNat]
  simp [Nat.shiftRight_eq_div_pow]; omega

/-- The formats in the rules' own spelling, `fam << 12 | nnn` (for example `0x1000 | nnn`, rule R71). -/
theorem fmtA_eq_or (f : Nibble) (a : Addr12) : fmtA f a = (f.setWidth 16) <<< 12 ||| a.setWidth 16 := by
  have hf := f.isLt; have ha := a.isLt
  apply BitVec.eq_of_toNat_eq
  rw [fmtA_toNat]
  simp only [BitVec.toNat_or, BitVec.toNat_shiftLeft, BitVec.toNat_setWidth, Nat.shiftLeft_eq]
  rw [Nat.mod_eq_of_lt (by omega : f.toNat < 2 ^ 16), Nat.mod_eq_of_lt (by omega : f.toNat * 2 ^ 12 < 2 ^ 16),
    Nat.mod_eq_of_lt (by omega : a.toNat < 2 ^ 16), ← Nat.shiftLeft_eq,
    ← Nat.shiftLeft_add_eq_or_of_lt ha, Nat.shiftLeft_eq]

/-- `fam << 12 | x << 8 | nn` (for example `0x3000 | x << 8 | nn`, rule R74). -/
theorem fmtXB_eq_or (f : Nibble) (x : Reg) (nn : Byte) :
    fmtXB f x nn = (f.setWidth 16) <<< 12 ||| (x.setWidth 16) <<< 8 ||| nn.setWidth 16 := by
  have hf := f.isLt; have hx := x.isLt; have hn := nn.isLt
  apply BitVec.eq_of_toNat_eq
  rw [fmtXB_toNat]
  simp only [BitVec.toNat_or, BitVec.toNat_shiftLeft, BitVec.toNat_setWidth, Nat.shiftLeft_eq]
  rw [Nat.mod_eq_of_lt (by omega : f.toNat < 2 ^ 16), Nat.mod_eq_of_lt (by omega : f.toNat * 2 ^ 12 < 2 ^ 16),
    Nat.mod_eq_of_lt (by omega : x.toNat < 2 ^ 16), Nat.mod_eq_of_lt (by omega : x.toNat * 2 ^ 8 < 2 ^ 16),
    Nat.mod_eq_of_lt (by omega : nn.toNat < 2 ^ 16), ← Nat.shiftLeft_eq (f.toNat),
    ← Nat.shiftLeft_add_eq_or_of_lt (by omega : x.toNat * 2 ^ 8 < 2 ^ 12), Nat.shiftLeft_eq,
    (by ring : f.toNat * 2 ^ 12 + x.toNat * 2 ^ 8 = (f.toNat * 16 + x.toNat) * 2 ^ 8), ← Nat.shiftLeft_eq,
    ← Nat.shiftLeft_add_eq_or_of_lt hn, Nat.shiftLeft_eq]
  ring

/-- `fam << 12 | x << 8 | y << 4 | n` (for example `0x8001 | x << 8 | y << 4`, rule R84). -/
theorem fmtXYN_eq_or (f : Nibble) (x y : Reg) (n : Nibble) :
    fmtXYN f x y n = (f.setWidth 16) <<< 12 ||| n.setWidth 16 ||| (x.setWidth 16) <<< 8 ||| (y.setWidth 16) <<< 4 := by
  have hf := f.isLt; have hx := x.isLt; have hy := y.isLt; have hn := n.isLt
  apply BitVec.eq_of_toNat_eq
  rw [fmtXYN_toNat, BitVec.or_assoc, BitVec.or_assoc, BitVec.or_comm (n.setWidth 16), BitVec.or_assoc]
  simp only [BitVec.toNat_or, BitVec.toNat_shiftLeft, BitVec.toNat_setWidth, Nat.shiftLeft_eq]
  rw [Nat.mod_eq_of_lt (by omega : f.toNat < 2 ^ 16), Nat.mod_eq_of_lt (by omega : f.toNat * 2 ^ 12 < 2 ^ 16),
    Nat.mod_eq_of_lt (by omega : x.toNat < 2 ^ 16), Nat.mod_eq_of_lt (by omega : x.toNat * 2 ^ 8 < 2 ^ 16),
    Nat.mod_eq_of_lt (by omega : y.toNat < 2 ^ 16), Nat.mod_eq_of_lt (by omega : y.toNat * 2 ^ 4 < 2 ^ 16),
    Nat.mod_eq_of_lt (by omega : n.toNat < 2 ^ 16), ← Nat.shiftLeft_eq (y.toNat), ← Nat.shiftLeft_add_eq_or_of_lt hn,
    Nat.shiftLeft_eq, ← Nat.shiftLeft_eq (x.toNat),
    ← Nat.shiftLeft_add_eq_or_of_lt (by omega : y.toNat * 2 ^ 4 + n.toNat < 2 ^ 8), Nat.shiftLeft_eq,
    ← Nat.shiftLeft_eq (f.toNat),
    ← Nat.shiftLeft_add_eq_or_of_lt (by omega : x.toNat * 2 ^ 8 + (y.toNat * 2 ^ 4 + n.toNat) < 2 ^ 12),
    Nat.shiftLeft_eq]
  ring

end Sys2Proof
end

