-- ==== Sys2Proof/Laws/Memory.lean ====
section
/-!
SUPPORT. The byte store: what a read gives after a write, and that every operation keeps the canonical form.
-/

namespace Sys2Proof.Machine

/-! ### Read after write -/

theorem Memory.lookup_insert_same (m : Memory) (a : Nat) (b : Byte) : (Memory.insert m a b).lookup a = some b := by
  induction m with
  | nil => simp [Memory.insert, Memory.lookup]
  | cons c m ih =>
    obtain ⟨k, c⟩ := c
    unfold Memory.insert
    split_ifs with h1 h2
    · simp [Memory.lookup]
    · simp [Memory.lookup]
    · simp [Memory.lookup, h2, ih]

theorem Memory.lookup_insert_other (m : Memory) {a a' : Nat} (b : Byte) (h : a' ≠ a) :
    (Memory.insert m a b).lookup a' = m.lookup a' := by
  induction m with
  | nil => simp [Memory.insert, Memory.lookup, Ne.symm h]
  | cons c m ih =>
    obtain ⟨k, c⟩ := c
    unfold Memory.insert
    split_ifs with h1 h2
    · simp [Memory.lookup, Ne.symm h]
    · subst h2; simp [Memory.lookup, Ne.symm h]
    · simp [Memory.lookup, ih]

theorem Memory.lookup_erase_same (m : Memory) (a : Nat) : (Memory.erase m a).lookup a = none := by
  induction m with
  | nil => simp [Memory.erase, Memory.lookup]
  | cons c m ih =>
    obtain ⟨k, c⟩ := c
    unfold Memory.erase
    split_ifs with h
    · exact ih
    · simp [Memory.lookup, h, ih]

theorem Memory.lookup_erase_other (m : Memory) {a a' : Nat} (h : a' ≠ a) :
    (Memory.erase m a).lookup a' = m.lookup a' := by
  induction m with
  | nil => simp [Memory.erase, Memory.lookup]
  | cons c m ih =>
    obtain ⟨k, c⟩ := c
    unfold Memory.erase
    split_ifs with hk
    · subst hk; simp [Memory.lookup, Ne.symm h, ih]
    · simp [Memory.lookup, ih]

/-- A read of the address just written gives the byte written (rule R32). -/
@[simp] theorem Memory.read_write_same (p : Params) (m : Memory) (a : Nat) (b : Byte) :
    (m.write p a b).read p a = b := by
  unfold Memory.write Memory.read
  split_ifs with h
  · simp [Memory.lookup_erase_same, h]
  · simp [Memory.lookup_insert_same]

/-- A write changes that one byte and nothing else (rule R32). -/
theorem Memory.read_write_other (p : Params) (m : Memory) {a a' : Nat} (b : Byte) (h : a' ≠ a) :
    (m.write p a b).read p a' = m.read p a' := by
  unfold Memory.write Memory.read
  split_ifs
  · rw [Memory.lookup_erase_other m h]
  · rw [Memory.lookup_insert_other m b h]

/-- What every address reads after bytes are written from `a` upward. -/
theorem Memory.read_writeBytes (p : Params) (m : Memory) (a : Nat) (bs : List Byte) (a' : Nat) :
    (m.writeBytes p a bs).read p a' = if a ≤ a' then (bs[a' - a]?).getD (m.read p a') else m.read p a' := by
  induction bs generalizing m a with
  | nil => simp [Memory.writeBytes]
  | cons b bs ih =>
    rw [Memory.writeBytes, ih]
    rcases Nat.lt_trichotomy a a' with h | h | h
    · have hk : a' - a = (a' - (a + 1)) + 1 := by omega
      rw [if_pos (by omega), if_pos (by omega), hk, List.getElem?_cons_succ,
        Memory.read_write_other p m b (by omega)]
    · subst h; simp
    · rw [if_neg (by omega), if_neg (by omega), Memory.read_write_other p m b (by omega)]

/-- Bytes outside the written range read as before. -/
theorem Memory.read_writeBytes_outside (p : Params) (m : Memory) {a a' : Nat} {bs : List Byte}
    (h : a' < a ∨ a + bs.length ≤ a') : (m.writeBytes p a bs).read p a' = m.read p a' := by
  rw [Memory.read_writeBytes]
  split_ifs with h1
  · rw [List.getElem?_eq_none (by omega)]; rfl
  · rfl

/-- A byte of the written range reads as written. -/
theorem Memory.read_writeBytes_inside (p : Params) (m : Memory) (a : Nat) {bs : List Byte} {k : Nat}
    (h : k < bs.length) : (m.writeBytes p a bs).read p (a + k) = bs[k] := by
  rw [Memory.read_writeBytes, if_pos (by omega), Nat.add_sub_cancel_left, List.getElem?_eq_getElem h]; rfl

@[simp] theorem Memory.readBytes_length (p : Params) (m : Memory) (a n : Nat) :
    (m.readBytes p a n).length = n := by
  induction n generalizing a with
  | zero => rfl
  | succ n ih => simp [Memory.readBytes, ih]

/-- The `k`-th byte read from `a` upward is the byte at `a + k`. -/
theorem Memory.readBytes_getElem? (p : Params) (m : Memory) (a n k : Nat) :
    (m.readBytes p a n)[k]? = if k < n then some (m.read p (a + k)) else none := by
  induction n generalizing a k with
  | zero => simp [Memory.readBytes]
  | succ n ih =>
    cases k with
    | zero => simp [Memory.readBytes]
    | succ k =>
      rw [Memory.readBytes, List.getElem?_cons_succ, ih]
      simp [Nat.add_assoc, Nat.add_comm 1 k]

/-! ### The canonical form -/

theorem Memory.rising_mono {m : Memory} {lo lo' : Nat} (h : m.rising lo = true) (hl : lo' ≤ lo) :
    m.rising lo' = true := by
  cases m with
  | nil => rfl
  | cons c m =>
    obtain ⟨k, c⟩ := c
    simp only [Memory.rising, Bool.and_eq_true, decide_eq_true_eq] at h ⊢
    exact ⟨by omega, h.2⟩

theorem Memory.rising_insert {m : Memory} {lo a : Nat} (b : Byte) (h : m.rising lo = true) (ha : lo ≤ a) :
    (Memory.insert m a b).rising lo = true := by
  induction m generalizing lo with
  | nil => simp [Memory.insert, Memory.rising, ha]
  | cons c m ih =>
    obtain ⟨k, c⟩ := c
    simp only [Memory.rising, Bool.and_eq_true, decide_eq_true_eq] at h
    unfold Memory.insert
    split_ifs with h1 h2
    · simp only [Memory.rising, Bool.and_eq_true, decide_eq_true_eq]
      exact ⟨ha, by omega, h.2⟩
    · subst h2
      simpa only [Memory.rising, Bool.and_eq_true, decide_eq_true_eq] using h
    · simp only [Memory.rising, Bool.and_eq_true, decide_eq_true_eq]
      exact ⟨h.1, ih h.2 (by omega)⟩

theorem Memory.rising_erase {m : Memory} {lo : Nat} (a : Nat) (h : m.rising lo = true) :
    (Memory.erase m a).rising lo = true := by
  induction m generalizing lo with
  | nil => rfl
  | cons c m ih =>
    obtain ⟨k, c⟩ := c
    simp only [Memory.rising, Bool.and_eq_true, decide_eq_true_eq] at h
    unfold Memory.erase
    split_ifs with h1
    · exact ih (Memory.rising_mono h.2 (by omega))
    · simp only [Memory.rising, Bool.and_eq_true, decide_eq_true_eq]
      exact ⟨h.1, ih h.2⟩

theorem Memory.mem_insert {m : Memory} {a : Nat} {b : Byte} {c : Host.Cell} (h : c ∈ Memory.insert m a b) :
    c = (a, b) ∨ c ∈ m := by
  induction m with
  | nil => simpa [Memory.insert] using h
  | cons d m ih =>
    obtain ⟨k, d⟩ := d
    unfold Memory.insert at h
    split_ifs at h with h1 h2
    · simpa using h
    · rcases List.mem_cons.mp h with h | h
      · exact .inl h
      · exact .inr (List.mem_cons_of_mem _ h)
    · rcases List.mem_cons.mp h with h | h
      · exact .inr (h ▸ List.mem_cons_self)
      · exact (ih h).imp id (List.mem_cons_of_mem _)

theorem Memory.mem_erase {m : Memory} {a : Nat} {c : Host.Cell} (h : c ∈ Memory.erase m a) : c ∈ m := by
  induction m with
  | nil => exact h
  | cons d m ih =>
    obtain ⟨k, d⟩ := d
    unfold Memory.erase at h
    split_ifs at h with h1
    · exact List.mem_cons_of_mem _ (ih h)
    · rcases List.mem_cons.mp h with h | h
      · exact h ▸ List.mem_cons_self
      · exact List.mem_cons_of_mem _ (ih h)

theorem Memory.wf_iff (p : Params) (m : Memory) : m.wf p = true ↔
    m.rising 0 = true ∧ (∀ c ∈ m, c.2 ≠ p.resetByte c.1) ∧ ∀ c ∈ m, c.1 < p.memSize := by
  simp [Memory.wf, Memory.minimal, Memory.inRange, and_assoc]

/-- The reset memory, in which nothing is listed, is canonical. -/
@[simp] theorem Memory.wf_nil (p : Params) : Memory.wf p [] = true := rfl

/-- A write to a valid address keeps the canonical form. -/
theorem Memory.wf_write {p : Params} {m : Memory} {a : Nat} (b : Byte) (h : m.wf p = true) (ha : a < p.memSize) :
    (m.write p a b).wf p = true := by
  rw [Memory.wf_iff] at h ⊢
  obtain ⟨hr, hm, hs⟩ := h
  unfold Memory.write
  split_ifs with hb
  · exact ⟨Memory.rising_erase a hr, fun c hc => hm c (Memory.mem_erase hc), fun c hc => hs c (Memory.mem_erase hc)⟩
  · refine ⟨Memory.rising_insert b hr (Nat.zero_le a), fun c hc => ?_, fun c hc => ?_⟩
    · rcases Memory.mem_insert hc with rfl | hc
      · exact hb
      · exact hm c hc
    · rcases Memory.mem_insert hc with rfl | hc
      · exact ha
      · exact hs c hc

/-- Writing bytes into a valid range keeps the canonical form. -/
theorem Memory.wf_writeBytes {p : Params} {m : Memory} {a : Nat} {bs : List Byte} (h : m.wf p = true)
    (ha : bs = [] ∨ a + bs.length ≤ p.memSize) : (m.writeBytes p a bs).wf p = true := by
  induction bs generalizing m a with
  | nil => exact h
  | cons b bs ih =>
    simp only [List.length_cons, reduceCtorEq, false_or] at ha
    exact ih (Memory.wf_write b h (by omega)) (.inr (by omega))

end Sys2Proof.Machine
end

