-- ==== Sys2Proof/Laws/State.lean ====
section
/-!
SUPPORT. One lemma per field and update of `State`, each true by unfolding, so that no later proof unfolds a record
update.
-/

namespace Sys2Proof.Machine

variable (s : State)

@[simp] theorem State.withV_v (a : Vector Byte 16) : (s.withV a).v = a := rfl
@[simp] theorem State.withV_i (a : Vector Byte 16) : (s.withV a).i = s.i := rfl
@[simp] theorem State.withV_pc (a : Vector Byte 16) : (s.withV a).pc = s.pc := rfl
@[simp] theorem State.withV_sp (a : Vector Byte 16) : (s.withV a).sp = s.sp := rfl
@[simp] theorem State.withV_stack (a : Vector Byte 16) : (s.withV a).stack = s.stack := rfl
@[simp] theorem State.withV_dt (a : Vector Byte 16) : (s.withV a).dt = s.dt := rfl
@[simp] theorem State.withV_st (a : Vector Byte 16) : (s.withV a).st = s.st := rfl
@[simp] theorem State.withV_mem (a : Vector Byte 16) : (s.withV a).mem = s.mem := rfl
@[simp] theorem State.withV_fb (a : Vector Byte 16) : (s.withV a).fb = s.fb := rfl
@[simp] theorem State.withV_keys (a : Vector Byte 16) : (s.withV a).keys = s.keys := rfl
@[simp] theorem State.withV_wait (a : Vector Byte 16) : (s.withV a).wait = s.wait := rfl
@[simp] theorem State.withV_waitX (a : Vector Byte 16) : (s.withV a).waitX = s.waitX := rfl
@[simp] theorem State.withV_faultKind (a : Vector Byte 16) : (s.withV a).faultKind = s.faultKind := rfl
@[simp] theorem State.withV_params (a : Vector Byte 16) : (s.withV a).params = s.params := rfl
@[simp] theorem State.withV_rnd (a : Vector Byte 16) : (s.withV a).rnd = s.rnd := rfl
@[simp] theorem State.withV_draws (a : Vector Byte 16) : (s.withV a).draws = s.draws := rfl

@[simp] theorem State.withI_v (a : Word) : (s.withI a).v = s.v := rfl
@[simp] theorem State.withI_i (a : Word) : (s.withI a).i = a := rfl
@[simp] theorem State.withI_pc (a : Word) : (s.withI a).pc = s.pc := rfl
@[simp] theorem State.withI_sp (a : Word) : (s.withI a).sp = s.sp := rfl
@[simp] theorem State.withI_stack (a : Word) : (s.withI a).stack = s.stack := rfl
@[simp] theorem State.withI_dt (a : Word) : (s.withI a).dt = s.dt := rfl
@[simp] theorem State.withI_st (a : Word) : (s.withI a).st = s.st := rfl
@[simp] theorem State.withI_mem (a : Word) : (s.withI a).mem = s.mem := rfl
@[simp] theorem State.withI_fb (a : Word) : (s.withI a).fb = s.fb := rfl
@[simp] theorem State.withI_keys (a : Word) : (s.withI a).keys = s.keys := rfl
@[simp] theorem State.withI_wait (a : Word) : (s.withI a).wait = s.wait := rfl
@[simp] theorem State.withI_waitX (a : Word) : (s.withI a).waitX = s.waitX := rfl
@[simp] theorem State.withI_faultKind (a : Word) : (s.withI a).faultKind = s.faultKind := rfl
@[simp] theorem State.withI_params (a : Word) : (s.withI a).params = s.params := rfl
@[simp] theorem State.withI_rnd (a : Word) : (s.withI a).rnd = s.rnd := rfl
@[simp] theorem State.withI_draws (a : Word) : (s.withI a).draws = s.draws := rfl

@[simp] theorem State.withPc_v (a : Word) : (s.withPc a).v = s.v := rfl
@[simp] theorem State.withPc_i (a : Word) : (s.withPc a).i = s.i := rfl
@[simp] theorem State.withPc_pc (a : Word) : (s.withPc a).pc = a := rfl
@[simp] theorem State.withPc_sp (a : Word) : (s.withPc a).sp = s.sp := rfl
@[simp] theorem State.withPc_stack (a : Word) : (s.withPc a).stack = s.stack := rfl
@[simp] theorem State.withPc_dt (a : Word) : (s.withPc a).dt = s.dt := rfl
@[simp] theorem State.withPc_st (a : Word) : (s.withPc a).st = s.st := rfl
@[simp] theorem State.withPc_mem (a : Word) : (s.withPc a).mem = s.mem := rfl
@[simp] theorem State.withPc_fb (a : Word) : (s.withPc a).fb = s.fb := rfl
@[simp] theorem State.withPc_keys (a : Word) : (s.withPc a).keys = s.keys := rfl
@[simp] theorem State.withPc_wait (a : Word) : (s.withPc a).wait = s.wait := rfl
@[simp] theorem State.withPc_waitX (a : Word) : (s.withPc a).waitX = s.waitX := rfl
@[simp] theorem State.withPc_faultKind (a : Word) : (s.withPc a).faultKind = s.faultKind := rfl
@[simp] theorem State.withPc_params (a : Word) : (s.withPc a).params = s.params := rfl
@[simp] theorem State.withPc_rnd (a : Word) : (s.withPc a).rnd = s.rnd := rfl
@[simp] theorem State.withPc_draws (a : Word) : (s.withPc a).draws = s.draws := rfl

@[simp] theorem State.withStack_v (a : Byte) (b : Vector Word 16) : (s.withStack a b).v = s.v := rfl
@[simp] theorem State.withStack_i (a : Byte) (b : Vector Word 16) : (s.withStack a b).i = s.i := rfl
@[simp] theorem State.withStack_pc (a : Byte) (b : Vector Word 16) : (s.withStack a b).pc = s.pc := rfl
@[simp] theorem State.withStack_sp (a : Byte) (b : Vector Word 16) : (s.withStack a b).sp = a := rfl
@[simp] theorem State.withStack_stack (a : Byte) (b : Vector Word 16) : (s.withStack a b).stack = b := rfl
@[simp] theorem State.withStack_dt (a : Byte) (b : Vector Word 16) : (s.withStack a b).dt = s.dt := rfl
@[simp] theorem State.withStack_st (a : Byte) (b : Vector Word 16) : (s.withStack a b).st = s.st := rfl
@[simp] theorem State.withStack_mem (a : Byte) (b : Vector Word 16) : (s.withStack a b).mem = s.mem := rfl
@[simp] theorem State.withStack_fb (a : Byte) (b : Vector Word 16) : (s.withStack a b).fb = s.fb := rfl
@[simp] theorem State.withStack_keys (a : Byte) (b : Vector Word 16) : (s.withStack a b).keys = s.keys := rfl
@[simp] theorem State.withStack_wait (a : Byte) (b : Vector Word 16) : (s.withStack a b).wait = s.wait := rfl
@[simp] theorem State.withStack_waitX (a : Byte) (b : Vector Word 16) : (s.withStack a b).waitX = s.waitX := rfl
@[simp] theorem State.withStack_faultKind (a : Byte) (b : Vector Word 16) : (s.withStack a b).faultKind = s.faultKind := rfl
@[simp] theorem State.withStack_params (a : Byte) (b : Vector Word 16) : (s.withStack a b).params = s.params := rfl
@[simp] theorem State.withStack_rnd (a : Byte) (b : Vector Word 16) : (s.withStack a b).rnd = s.rnd := rfl
@[simp] theorem State.withStack_draws (a : Byte) (b : Vector Word 16) : (s.withStack a b).draws = s.draws := rfl

@[simp] theorem State.withDt_v (a : Byte) : (s.withDt a).v = s.v := rfl
@[simp] theorem State.withDt_i (a : Byte) : (s.withDt a).i = s.i := rfl
@[simp] theorem State.withDt_pc (a : Byte) : (s.withDt a).pc = s.pc := rfl
@[simp] theorem State.withDt_sp (a : Byte) : (s.withDt a).sp = s.sp := rfl
@[simp] theorem State.withDt_stack (a : Byte) : (s.withDt a).stack = s.stack := rfl
@[simp] theorem State.withDt_dt (a : Byte) : (s.withDt a).dt = a := rfl
@[simp] theorem State.withDt_st (a : Byte) : (s.withDt a).st = s.st := rfl
@[simp] theorem State.withDt_mem (a : Byte) : (s.withDt a).mem = s.mem := rfl
@[simp] theorem State.withDt_fb (a : Byte) : (s.withDt a).fb = s.fb := rfl
@[simp] theorem State.withDt_keys (a : Byte) : (s.withDt a).keys = s.keys := rfl
@[simp] theorem State.withDt_wait (a : Byte) : (s.withDt a).wait = s.wait := rfl
@[simp] theorem State.withDt_waitX (a : Byte) : (s.withDt a).waitX = s.waitX := rfl
@[simp] theorem State.withDt_faultKind (a : Byte) : (s.withDt a).faultKind = s.faultKind := rfl
@[simp] theorem State.withDt_params (a : Byte) : (s.withDt a).params = s.params := rfl
@[simp] theorem State.withDt_rnd (a : Byte) : (s.withDt a).rnd = s.rnd := rfl
@[simp] theorem State.withDt_draws (a : Byte) : (s.withDt a).draws = s.draws := rfl

@[simp] theorem State.withSt_v (a : Byte) : (s.withSt a).v = s.v := rfl
@[simp] theorem State.withSt_i (a : Byte) : (s.withSt a).i = s.i := rfl
@[simp] theorem State.withSt_pc (a : Byte) : (s.withSt a).pc = s.pc := rfl
@[simp] theorem State.withSt_sp (a : Byte) : (s.withSt a).sp = s.sp := rfl
@[simp] theorem State.withSt_stack (a : Byte) : (s.withSt a).stack = s.stack := rfl
@[simp] theorem State.withSt_dt (a : Byte) : (s.withSt a).dt = s.dt := rfl
@[simp] theorem State.withSt_st (a : Byte) : (s.withSt a).st = a := rfl
@[simp] theorem State.withSt_mem (a : Byte) : (s.withSt a).mem = s.mem := rfl
@[simp] theorem State.withSt_fb (a : Byte) : (s.withSt a).fb = s.fb := rfl
@[simp] theorem State.withSt_keys (a : Byte) : (s.withSt a).keys = s.keys := rfl
@[simp] theorem State.withSt_wait (a : Byte) : (s.withSt a).wait = s.wait := rfl
@[simp] theorem State.withSt_waitX (a : Byte) : (s.withSt a).waitX = s.waitX := rfl
@[simp] theorem State.withSt_faultKind (a : Byte) : (s.withSt a).faultKind = s.faultKind := rfl
@[simp] theorem State.withSt_params (a : Byte) : (s.withSt a).params = s.params := rfl
@[simp] theorem State.withSt_rnd (a : Byte) : (s.withSt a).rnd = s.rnd := rfl
@[simp] theorem State.withSt_draws (a : Byte) : (s.withSt a).draws = s.draws := rfl

@[simp] theorem State.withMem_v (a : Memory) : (s.withMem a).v = s.v := rfl
@[simp] theorem State.withMem_i (a : Memory) : (s.withMem a).i = s.i := rfl
@[simp] theorem State.withMem_pc (a : Memory) : (s.withMem a).pc = s.pc := rfl
@[simp] theorem State.withMem_sp (a : Memory) : (s.withMem a).sp = s.sp := rfl
@[simp] theorem State.withMem_stack (a : Memory) : (s.withMem a).stack = s.stack := rfl
@[simp] theorem State.withMem_dt (a : Memory) : (s.withMem a).dt = s.dt := rfl
@[simp] theorem State.withMem_st (a : Memory) : (s.withMem a).st = s.st := rfl
@[simp] theorem State.withMem_mem (a : Memory) : (s.withMem a).mem = a := rfl
@[simp] theorem State.withMem_fb (a : Memory) : (s.withMem a).fb = s.fb := rfl
@[simp] theorem State.withMem_keys (a : Memory) : (s.withMem a).keys = s.keys := rfl
@[simp] theorem State.withMem_wait (a : Memory) : (s.withMem a).wait = s.wait := rfl
@[simp] theorem State.withMem_waitX (a : Memory) : (s.withMem a).waitX = s.waitX := rfl
@[simp] theorem State.withMem_faultKind (a : Memory) : (s.withMem a).faultKind = s.faultKind := rfl
@[simp] theorem State.withMem_params (a : Memory) : (s.withMem a).params = s.params := rfl
@[simp] theorem State.withMem_rnd (a : Memory) : (s.withMem a).rnd = s.rnd := rfl
@[simp] theorem State.withMem_draws (a : Memory) : (s.withMem a).draws = s.draws := rfl

@[simp] theorem State.withFb_v (a : Framebuffer) : (s.withFb a).v = s.v := rfl
@[simp] theorem State.withFb_i (a : Framebuffer) : (s.withFb a).i = s.i := rfl
@[simp] theorem State.withFb_pc (a : Framebuffer) : (s.withFb a).pc = s.pc := rfl
@[simp] theorem State.withFb_sp (a : Framebuffer) : (s.withFb a).sp = s.sp := rfl
@[simp] theorem State.withFb_stack (a : Framebuffer) : (s.withFb a).stack = s.stack := rfl
@[simp] theorem State.withFb_dt (a : Framebuffer) : (s.withFb a).dt = s.dt := rfl
@[simp] theorem State.withFb_st (a : Framebuffer) : (s.withFb a).st = s.st := rfl
@[simp] theorem State.withFb_mem (a : Framebuffer) : (s.withFb a).mem = s.mem := rfl
@[simp] theorem State.withFb_fb (a : Framebuffer) : (s.withFb a).fb = a := rfl
@[simp] theorem State.withFb_keys (a : Framebuffer) : (s.withFb a).keys = s.keys := rfl
@[simp] theorem State.withFb_wait (a : Framebuffer) : (s.withFb a).wait = s.wait := rfl
@[simp] theorem State.withFb_waitX (a : Framebuffer) : (s.withFb a).waitX = s.waitX := rfl
@[simp] theorem State.withFb_faultKind (a : Framebuffer) : (s.withFb a).faultKind = s.faultKind := rfl
@[simp] theorem State.withFb_params (a : Framebuffer) : (s.withFb a).params = s.params := rfl
@[simp] theorem State.withFb_rnd (a : Framebuffer) : (s.withFb a).rnd = s.rnd := rfl
@[simp] theorem State.withFb_draws (a : Framebuffer) : (s.withFb a).draws = s.draws := rfl

@[simp] theorem State.withKeys_v (a : Vector Bool 16) : (s.withKeys a).v = s.v := rfl
@[simp] theorem State.withKeys_i (a : Vector Bool 16) : (s.withKeys a).i = s.i := rfl
@[simp] theorem State.withKeys_pc (a : Vector Bool 16) : (s.withKeys a).pc = s.pc := rfl
@[simp] theorem State.withKeys_sp (a : Vector Bool 16) : (s.withKeys a).sp = s.sp := rfl
@[simp] theorem State.withKeys_stack (a : Vector Bool 16) : (s.withKeys a).stack = s.stack := rfl
@[simp] theorem State.withKeys_dt (a : Vector Bool 16) : (s.withKeys a).dt = s.dt := rfl
@[simp] theorem State.withKeys_st (a : Vector Bool 16) : (s.withKeys a).st = s.st := rfl
@[simp] theorem State.withKeys_mem (a : Vector Bool 16) : (s.withKeys a).mem = s.mem := rfl
@[simp] theorem State.withKeys_fb (a : Vector Bool 16) : (s.withKeys a).fb = s.fb := rfl
@[simp] theorem State.withKeys_keys (a : Vector Bool 16) : (s.withKeys a).keys = a := rfl
@[simp] theorem State.withKeys_wait (a : Vector Bool 16) : (s.withKeys a).wait = s.wait := rfl
@[simp] theorem State.withKeys_waitX (a : Vector Bool 16) : (s.withKeys a).waitX = s.waitX := rfl
@[simp] theorem State.withKeys_faultKind (a : Vector Bool 16) : (s.withKeys a).faultKind = s.faultKind := rfl
@[simp] theorem State.withKeys_params (a : Vector Bool 16) : (s.withKeys a).params = s.params := rfl
@[simp] theorem State.withKeys_rnd (a : Vector Bool 16) : (s.withKeys a).rnd = s.rnd := rfl
@[simp] theorem State.withKeys_draws (a : Vector Bool 16) : (s.withKeys a).draws = s.draws := rfl

@[simp] theorem State.withWait_v (a : Bool) (b : Reg) : (s.withWait a b).v = s.v := rfl
@[simp] theorem State.withWait_i (a : Bool) (b : Reg) : (s.withWait a b).i = s.i := rfl
@[simp] theorem State.withWait_pc (a : Bool) (b : Reg) : (s.withWait a b).pc = s.pc := rfl
@[simp] theorem State.withWait_sp (a : Bool) (b : Reg) : (s.withWait a b).sp = s.sp := rfl
@[simp] theorem State.withWait_stack (a : Bool) (b : Reg) : (s.withWait a b).stack = s.stack := rfl
@[simp] theorem State.withWait_dt (a : Bool) (b : Reg) : (s.withWait a b).dt = s.dt := rfl
@[simp] theorem State.withWait_st (a : Bool) (b : Reg) : (s.withWait a b).st = s.st := rfl
@[simp] theorem State.withWait_mem (a : Bool) (b : Reg) : (s.withWait a b).mem = s.mem := rfl
@[simp] theorem State.withWait_fb (a : Bool) (b : Reg) : (s.withWait a b).fb = s.fb := rfl
@[simp] theorem State.withWait_keys (a : Bool) (b : Reg) : (s.withWait a b).keys = s.keys := rfl
@[simp] theorem State.withWait_wait (a : Bool) (b : Reg) : (s.withWait a b).wait = a := rfl
@[simp] theorem State.withWait_waitX (a : Bool) (b : Reg) : (s.withWait a b).waitX = b := rfl
@[simp] theorem State.withWait_faultKind (a : Bool) (b : Reg) : (s.withWait a b).faultKind = s.faultKind := rfl
@[simp] theorem State.withWait_params (a : Bool) (b : Reg) : (s.withWait a b).params = s.params := rfl
@[simp] theorem State.withWait_rnd (a : Bool) (b : Reg) : (s.withWait a b).rnd = s.rnd := rfl
@[simp] theorem State.withWait_draws (a : Bool) (b : Reg) : (s.withWait a b).draws = s.draws := rfl

@[simp] theorem State.withRnd_v (a : Byte) : (s.withRnd a).v = s.v := rfl
@[simp] theorem State.withRnd_i (a : Byte) : (s.withRnd a).i = s.i := rfl
@[simp] theorem State.withRnd_pc (a : Byte) : (s.withRnd a).pc = s.pc := rfl
@[simp] theorem State.withRnd_sp (a : Byte) : (s.withRnd a).sp = s.sp := rfl
@[simp] theorem State.withRnd_stack (a : Byte) : (s.withRnd a).stack = s.stack := rfl
@[simp] theorem State.withRnd_dt (a : Byte) : (s.withRnd a).dt = s.dt := rfl
@[simp] theorem State.withRnd_st (a : Byte) : (s.withRnd a).st = s.st := rfl
@[simp] theorem State.withRnd_mem (a : Byte) : (s.withRnd a).mem = s.mem := rfl
@[simp] theorem State.withRnd_fb (a : Byte) : (s.withRnd a).fb = s.fb := rfl
@[simp] theorem State.withRnd_keys (a : Byte) : (s.withRnd a).keys = s.keys := rfl
@[simp] theorem State.withRnd_wait (a : Byte) : (s.withRnd a).wait = s.wait := rfl
@[simp] theorem State.withRnd_waitX (a : Byte) : (s.withRnd a).waitX = s.waitX := rfl
@[simp] theorem State.withRnd_faultKind (a : Byte) : (s.withRnd a).faultKind = s.faultKind := rfl
@[simp] theorem State.withRnd_params (a : Byte) : (s.withRnd a).params = s.params := rfl
@[simp] theorem State.withRnd_rnd (a : Byte) : (s.withRnd a).rnd = a := rfl
@[simp] theorem State.withRnd_draws (a : Byte) : (s.withRnd a).draws = s.draws := rfl

@[simp] theorem State.nextDraw_v : s.nextDraw.v = s.v := rfl
@[simp] theorem State.nextDraw_i : s.nextDraw.i = s.i := rfl
@[simp] theorem State.nextDraw_pc : s.nextDraw.pc = s.pc := rfl
@[simp] theorem State.nextDraw_sp : s.nextDraw.sp = s.sp := rfl
@[simp] theorem State.nextDraw_stack : s.nextDraw.stack = s.stack := rfl
@[simp] theorem State.nextDraw_dt : s.nextDraw.dt = s.dt := rfl
@[simp] theorem State.nextDraw_st : s.nextDraw.st = s.st := rfl
@[simp] theorem State.nextDraw_mem : s.nextDraw.mem = s.mem := rfl
@[simp] theorem State.nextDraw_fb : s.nextDraw.fb = s.fb := rfl
@[simp] theorem State.nextDraw_keys : s.nextDraw.keys = s.keys := rfl
@[simp] theorem State.nextDraw_wait : s.nextDraw.wait = s.wait := rfl
@[simp] theorem State.nextDraw_waitX : s.nextDraw.waitX = s.waitX := rfl
@[simp] theorem State.nextDraw_faultKind : s.nextDraw.faultKind = s.faultKind := rfl
@[simp] theorem State.nextDraw_params : s.nextDraw.params = s.params := rfl
@[simp] theorem State.nextDraw_rnd : s.nextDraw.rnd = s.rnd := rfl
@[simp] theorem State.nextDraw_draws : s.nextDraw.draws = s.draws + 1 := rfl

end Sys2Proof.Machine
end

