-- ==== Sys2Proof/Laws/Ops.lean ====
section
/-!
SUPPORT. For each shared operation, once, everything it can do.
-/

namespace Sys2Proof.Machine

/-! ### General registers -/

@[simp] theorem State.getV_setV_same (s : State) (x : Reg) (b : Byte) : (s.setV x b).getV x = b := by
  simp [State.getV, State.setV]

theorem State.getV_setV_other (s : State) {x r : Reg} (b : Byte) (h : r ≠ x) : (s.setV x b).getV r = s.getV r := by
  have hn : x.toNat ≠ r.toNat := fun e => h (BitVec.eq_of_toNat_eq e.symm)
  simp [State.getV, State.setV, hn]

/-- What every register reads after a write to `V[x]`. -/
theorem State.getV_setV (s : State) (x r : Reg) (b : Byte) : (s.setV x b).getV r = if r = x then b else s.getV r := by
  split_ifs with h
  · subst h; exact State.getV_setV_same s r b
  · exact State.getV_setV_other s b h

/-- What every register reads after a result and its flag: the flag, written last, wins VF (rule R80). -/
theorem State.getV_setVFlag (s : State) (x r : Reg) (q : Byte × Bool) :
    (s.setVFlag x q).getV r = if r = 0xF then flagByte q.2 else if r = x then q.1 else s.getV r := by
  simp only [State.setVFlag, State.getV_setV]

@[simp] theorem State.getV_withV (s : State) (v : Vector Byte 16) (x : Reg) :
    (s.withV v).getV x = v[x.toNat]'(Reg.toNat_lt x) := rfl

/-- What every register holds after registers are loaded from number `k` upward. -/
theorem getElem_setRegsFrom (v : Vector Byte 16) (k : Nat) (bs : List Byte) (j : Nat) (hj : j < 16) :
    (setRegsFrom v k bs)[j] = if k ≤ j then (bs[j - k]?).getD v[j] else v[j] := by
  induction bs generalizing v k with
  | nil => simp [setRegsFrom]
  | cons b bs ih =>
    rw [setRegsFrom, ih]
    rcases Nat.lt_trichotomy k j with h | h | h
    · have e : j - k = (j - (k + 1)) + 1 := by omega
      rw [if_pos (by omega), if_pos (by omega), e, List.getElem?_cons_succ,
        Vector.getElem_setIfInBounds_ne hj (by omega)]
    · subst h; simp
    · rw [if_neg (by omega), if_neg (by omega), Vector.getElem_setIfInBounds_ne hj (by omega)]

/-! ### Program counter -/

@[simp] theorem imm12_toNat (a : Addr12) : (imm12 a).toNat = a.toNat := by
  have := a.isLt
  simp only [imm12, BitVec.toNat_setWidth]; omega

/-- A taken skip adds 2 to `PC`, wrapping; one not taken leaves it (rule R70). -/
theorem State.skipIf_pc_toNat (s : State) (c : Bool) :
    (s.skipIf c).pc.toNat = if c = true then (s.pc.toNat + 2) % 65536 else s.pc.toNat := by
  unfold State.skipIf
  split_ifs <;> simp [State.advancePc, BitVec.toNat_add]

/-! ### Stack -/

/-- An entry that exists is the stack's own. -/
theorem State.stackAt_lt (s : State) {j : Byte} (h : j.toNat < 16) : s.stackAt j = s.stack[j.toNat] := dif_pos h

/-- `SP - 1` of a stack that is not empty. -/
theorem toNat_sub_one {b : Byte} (h : 0 < b.toNat) : (b - 1).toNat = b.toNat - 1 := by
  revert b; decide

/-- `SP + 1` of a stack with room. -/
theorem toNat_add_one {b : Byte} (h : b.toNat < 16) : (b + 1).toNat = b.toNat + 1 := by
  rw [BitVec.toNat_add]
  simp; omega

/-- A push with room stacks the word, raises the depth and touches no other entry; a full stack overflows. -/
theorem State.push_cases (s : State) (w : Word) :
    (16 ≤ s.sp.toNat ∧ s.push w = .error .stackOverflow) ∨
    (∃ h : s.sp.toNat < 16, s.push w = .ok (s.withStack (s.sp + 1) (s.stack.set s.sp.toNat w h))) := by
  unfold State.push
  split_ifs with h
  · exact .inr ⟨h, rfl⟩
  · exact .inl ⟨by omega, rfl⟩

/-- A pop of a stack that is not empty lowers the depth and takes `PC` from the top; an empty one underflows. -/
theorem State.popPc_cases (s : State) :
    (s.sp.toNat = 0 ∧ s.popPc = .error .stackUnderflow) ∨
    (0 < s.sp.toNat ∧ s.popPc = .ok ((s.withStack (s.sp - 1) s.stack).withPc (s.stackAt (s.sp - 1)))) := by
  unfold State.popPc
  split_ifs with h
  · exact .inl ⟨congrArg BitVec.toNat h, rfl⟩
  · exact .inr ⟨Nat.pos_of_ne_zero fun e => h (BitVec.eq_of_toNat_eq e), rfl⟩

/-! ### Memory -/

theorem State.rangeOk_iff (s : State) (a n : Nat) : s.rangeOk a n = true ↔ n = 0 ∨ a + n ≤ s.params.memSize := by
  simp [State.rangeOk]

/-- Bytes load from a valid range and from no other. -/
theorem State.loadBytes_eq (s : State) (a n : Nat) : s.loadBytes a n =
    if n = 0 ∨ a + n ≤ s.params.memSize then .ok (s.mem.readBytes s.params a n) else .error .addressFault := by
  unfold State.loadBytes
  simp only [State.rangeOk_iff]

/-- Bytes are stored into a valid range and into no other. -/
theorem State.storeBytes_eq (s : State) (a : Nat) (bs : List Byte) : s.storeBytes a bs =
    if bs.length = 0 ∨ a + bs.length ≤ s.params.memSize then .ok (s.pokeBytes a bs) else .error .addressFault := by
  unfold State.storeBytes
  simp only [State.rangeOk_iff]

/-- The byte read `k` places above the base of a load. -/
theorem State.readBytes_getElem? (s : State) (a n k : Nat) :
    (s.mem.readBytes s.params a n)[k]? = if k < n then some (s.peek (a + k)) else none :=
  Memory.readBytes_getElem? s.params s.mem a n k

/-- What every address reads after bytes are written. -/
theorem State.peek_pokeBytes (s : State) (a : Nat) (bs : List Byte) (a' : Nat) :
    (s.pokeBytes a bs).peek a' = if a ≤ a' then (bs[a' - a]?).getD (s.peek a') else s.peek a' :=
  Memory.read_writeBytes s.params s.mem a bs a'

theorem State.peek_pokeBytes_outside (s : State) {a a' : Nat} {bs : List Byte}
    (h : a' < a ∨ a + bs.length ≤ a') : (s.pokeBytes a bs).peek a' = s.peek a' :=
  Memory.read_writeBytes_outside s.params s.mem h

theorem State.peek_pokeBytes_inside (s : State) (a : Nat) {bs : List Byte} {k : Nat} (h : k < bs.length) :
    (s.pokeBytes a bs).peek (a + k) = bs[k] :=
  Memory.read_writeBytes_inside s.params s.mem a h

theorem State.pokeBytes_def (s : State) (a : Nat) (bs : List Byte) :
    s.pokeBytes a bs = s.withMem (s.mem.writeBytes s.params a bs) := rfl

/-- Two states with the same memory and the same parameters read alike. -/
theorem State.peek_congr {s t : State} (hm : t.mem = s.mem) (hp : t.params = s.params) (a : Nat) :
    t.peek a = s.peek a := by
  unfold State.peek; rw [hm, hp]

/-! ### Framebuffer -/

@[simp] theorem Framebuffer.get_flip_same (fb : Framebuffer) (y : Fin 32) (x : Fin 64) :
    (fb.flip y x).get y x = !fb.get y x := by
  simp [Framebuffer.flip, Framebuffer.get]

theorem Framebuffer.get_flip_other (fb : Framebuffer) {y y' : Fin 32} {x x' : Fin 64} (h : y' ≠ y ∨ x' ≠ x) :
    (fb.flip y x).get y' x' = fb.get y' x' := by
  by_cases hy : y' = y
  · subst hy
    have hx : x.val ≠ x'.val := fun e => (h.resolve_left (· rfl)) (Fin.ext e.symm)
    simp [Framebuffer.flip, Framebuffer.get, hx]
  · have hy' : y.val ≠ y'.val := fun e => hy (Fin.ext e.symm)
    simp [Framebuffer.flip, Framebuffer.get, hy']

@[simp] theorem Framebuffer.get_blank (y : Fin 32) (x : Fin 64) : Framebuffer.blank.get y x = false := by
  simp [Framebuffer.blank, Framebuffer.get]

/-- Two pictures with the same pixels are equal. -/
theorem Framebuffer.ext_get {a b : Framebuffer} (h : ∀ y x, a.get y x = b.get y x) : a = b := by
  apply Vector.ext
  intro y hy
  apply Vector.ext
  intro x hx
  exact h ⟨y, hy⟩ ⟨x, hx⟩

/-! ### Keys -/

/-- No key is found exactly when none is down. -/
theorem State.leastKey_none (s : State) : s.leastKey = none ↔ ∀ k : Nibble, s.key k = false := by
  unfold State.leastKey State.key
  rw [List.findIdx?_eq_none_iff]
  constructor
  · intro h k
    simpa using h _ (Vector.mem_toList_iff.mpr (Vector.getElem_mem (Reg.toNat_lt k)))
  · intro h b hb
    obtain ⟨k, hk, rfl⟩ := Vector.getElem_of_mem (Vector.mem_toList_iff.mp hb)
    simpa [Nat.mod_eq_of_lt hk] using h (BitVec.ofNat 4 k)

/-- The key found is down and every lower one is up. -/
theorem State.leastKey_some {s : State} {n : Nat} (h : s.leastKey = some n) :
    ∃ hn : n < 16, s.keys[n] = true ∧ ∀ m (hm : m < n), s.keys[m]'(by omega) = false := by
  unfold State.leastKey at h
  rw [List.findIdx?_eq_some_iff_getElem] at h
  obtain ⟨hn, hk, hl⟩ := h
  simp only [Vector.length_toList] at hn
  refine ⟨hn, by simpa using hk, fun m hm => by simpa using hl m hm⟩

end Sys2Proof.Machine
end

