-- ==== Sys2Proof/Laws/Display.lean ====
section
/-!
SUPPORT. Everything drawing a sprite does (46_display.md rule R116): no two bits of a sprite of at most 32 rows cover
the same pixel, so each covered pixel is inverted once and the collision is judged by the picture before the draw.
-/

namespace Sys2Proof.Machine

/-- Bit `c` of the sprite row `b` is 1 and falls on the pixel. -/
def bitCovers (x0 y0 : Byte) (r : Nat) (b : Byte) (c : Nat) (y : Fin 32) (x : Fin 64) : Bool :=
  b.getLsbD (7 - c) && decide (Fin.ofNat 32 (y0.toNat + r) = y) && decide (Fin.ofNat 64 (x0.toNat + c) = x)

/-- One bit of a sprite inverts the pixel it covers and no other. -/
theorem drawBit_get (x0 y0 : Byte) (r : Nat) (b : Byte) (acc : Framebuffer × Bool) (c : Nat)
    (y : Fin 32) (x : Fin 64) :
    (drawBit x0 y0 r b acc c).1.get y x = (acc.1.get y x ^^ bitCovers x0 y0 r b c y x) := by
  unfold drawBit bitCovers
  split_ifs with h
  · generalize Fin.ofNat 32 (y0.toNat + r) = y1
    generalize Fin.ofNat 64 (x0.toNat + c) = x1
    by_cases h1 : y1 = y
    · by_cases h2 : x1 = x
      · subst h1 h2; rw [Framebuffer.get_flip_same]; simp [h]
      · rw [Framebuffer.get_flip_other _ (.inr (Ne.symm h2))]; simp [h2]
    · rw [Framebuffer.get_flip_other _ (.inl (Ne.symm h1))]; simp [h1]
  · simp [h]

/-- The column sprite column `c` falls on. -/
def spriteCol (x0 : Byte) (c : Nat) : Fin 64 := Fin.ofNat 64 (x0.toNat + c)

/-- The row sprite row `r` falls on. -/
def spriteRow (y0 : Byte) (r : Nat) : Fin 32 := Fin.ofNat 32 (y0.toNat + r)

/-- Two sprite columns never fall on the same column. -/
theorem spriteCol_inj (x0 : Byte) {c c' : Nat} (h : c < 8) (h' : c' < 8) (e : spriteCol x0 c = spriteCol x0 c') :
    c = c' := by
  have := congrArg Fin.val e; simp [spriteCol] at this; omega

/-- Two sprite rows never fall on the same row. -/

theorem spriteRow_inj (y0 : Byte) {c c' : Nat} (h : c < 32) (h' : c' < 32) (e : spriteRow y0 c = spriteRow y0 c') :
    c = c' := by
  have := congrArg Fin.val e; simp [spriteRow] at this; omega

/-- One of the bits `cs` of the row falls on the pixel. -/
def rowCovers (x0 y0 : Byte) (r : Nat) (b : Byte) (cs : List Nat) (y : Fin 32) (x : Fin 64) : Bool :=
  cs.any fun c => bitCovers x0 y0 r b c y x

/-- Bits of one row invert the pixels they cover, and collide with those that were set. -/
theorem foldl_drawBit (x0 y0 : Byte) (r : Nat) (b : Byte) (cs : List Nat) (hn : cs.Nodup)
    (hc : ∀ c ∈ cs, c < 8) (acc : Framebuffer × Bool) :
    (∀ y x, (cs.foldl (drawBit x0 y0 r b) acc).1.get y x = (acc.1.get y x ^^ rowCovers x0 y0 r b cs y x)) ∧
    ((cs.foldl (drawBit x0 y0 r b) acc).2 = true ↔
      acc.2 = true ∨ ∃ y x, rowCovers x0 y0 r b cs y x = true ∧ acc.1.get y x = true) := by
  induction cs generalizing acc with
  | nil => simp [rowCovers]
  | cons c cs ih =>
    have ih := ih (List.nodup_cons.mp hn).2 (fun c' h => hc c' (List.mem_cons_of_mem _ h)) (drawBit x0 y0 r b acc c)
    have dis : ∀ y x, bitCovers x0 y0 r b c y x = true → rowCovers x0 y0 r b cs y x = false := by
      intro y x h
      rw [Bool.eq_false_iff]
      intro h2
      simp only [rowCovers, List.any_eq_true] at h2
      obtain ⟨c', hc', h2⟩ := h2
      simp only [bitCovers, Bool.and_eq_true, decide_eq_true_eq] at h h2
      have := spriteCol_inj x0 (hc c List.mem_cons_self) (hc c' (List.mem_cons_of_mem _ hc')) (h.2.trans h2.2.symm)
      subst this
      exact (List.nodup_cons.mp hn).1 hc'
    constructor
    · intro y x
      rw [List.foldl_cons, ih.1, drawBit_get]
      simp only [rowCovers, List.any_cons]
      cases h : bitCovers x0 y0 r b c y x
      · simp
      · have := dis y x h; simp only [rowCovers] at this; simp [this]
    · rw [List.foldl_cons, ih.2]
      have h2 : (drawBit x0 y0 r b acc c).2 = true ↔
          acc.2 = true ∨ ∃ y x, bitCovers x0 y0 r b c y x = true ∧ acc.1.get y x = true := by
        unfold drawBit
        split_ifs with h
        · simp [bitCovers, h]
        · simp [bitCovers, h]
      rw [h2]
      constructor
      · rintro ((h | ⟨y, x, h, h'⟩) | ⟨y, x, h, h'⟩)
        · exact .inl h
        · exact .inr ⟨y, x, by simp [rowCovers, h], h'⟩
        · refine .inr ⟨y, x, by simp only [rowCovers] at h; simp [rowCovers, h], ?_⟩
          rw [drawBit_get] at h'
          cases hh : bitCovers x0 y0 r b c y x
          · simpa [hh] using h'
          · rw [dis y x hh] at h; cases h
      · rintro (h | ⟨y, x, h, h'⟩)
        · exact .inl (.inl h)
        · simp only [rowCovers, List.any_cons, Bool.or_eq_true] at h
          rcases h with h | h
          · exact .inl (.inr ⟨y, x, h, h'⟩)
          · refine .inr ⟨y, x, h, ?_⟩
            rw [drawBit_get]
            cases hh : bitCovers x0 y0 r b c y x
            · simpa using h'
            · have := dis y x hh; simp only [rowCovers] at this; rw [this] at h; cases h

/-- A bit of one of the rows, the first of which is sprite row `r`, falls on the pixel. -/
def rowsCover (x0 y0 : Byte) : Nat → List Byte → Fin 32 → Fin 64 → Bool
  | _, [], _, _ => false
  | r, b :: bs, y, x => rowCovers x0 y0 r b [0, 1, 2, 3, 4, 5, 6, 7] y x || rowsCover x0 y0 (r + 1) bs y x

/-- A row covers pixels of one row of the picture only. -/
theorem rowCovers_row {x0 y0 : Byte} {r : Nat} {b : Byte} {cs y x} (h : rowCovers x0 y0 r b cs y x = true) :
    spriteRow y0 r = y := by
  simp only [rowCovers, List.any_eq_true, bitCovers, Bool.and_eq_true, decide_eq_true_eq] at h
  obtain ⟨c, _, h⟩ := h; exact h.1.2

/-- Rows cover pixels of their own rows of the picture only. -/
theorem rowsCover_row {x0 y0 : Byte} {r : Nat} {bs y x} (h : rowsCover x0 y0 r bs y x = true) :
    ∃ k, k < bs.length ∧ spriteRow y0 (r + k) = y := by
  induction bs generalizing r with
  | nil => cases h
  | cons b bs ih =>
    simp only [rowsCover, Bool.or_eq_true] at h
    rcases h with h | h
    · exact ⟨0, by simp, rowCovers_row h⟩
    · obtain ⟨k, hk, e⟩ := ih h
      exact ⟨k + 1, by simp; omega, by rw [← e]; congr 1; omega⟩

/-- Rows of a sprite invert the pixels they cover, and collide with those that were set. -/
theorem drawRows_spec (x0 y0 : Byte) (r : Nat) (bs : List Byte) (hl : r + bs.length ≤ 32) (acc : Framebuffer × Bool) :
    (∀ y x, (drawRows x0 y0 r bs acc).1.get y x = (acc.1.get y x ^^ rowsCover x0 y0 r bs y x)) ∧
    ((drawRows x0 y0 r bs acc).2 = true ↔
      acc.2 = true ∨ ∃ y x, rowsCover x0 y0 r bs y x = true ∧ acc.1.get y x = true) := by
  induction bs generalizing r acc with
  | nil => simp [drawRows, rowsCover]
  | cons b bs ih =>
    simp only [List.length_cons] at hl
    have ih := ih (r + 1) (by omega) (drawRow x0 y0 r b acc)
    have hb := foldl_drawBit x0 y0 r b [0, 1, 2, 3, 4, 5, 6, 7] (by decide) (by decide) acc
    have dis : ∀ y x, rowCovers x0 y0 r b [0, 1, 2, 3, 4, 5, 6, 7] y x = true → rowsCover x0 y0 (r + 1) bs y x = false := by
      intro y x h
      rw [Bool.eq_false_iff]
      intro h2
      obtain ⟨k, hk, e⟩ := rowsCover_row h2
      have := spriteRow_inj y0 (by omega) (by omega) ((rowCovers_row h).trans e.symm)
      omega
    rw [drawRows]
    unfold drawRow at *
    constructor
    · intro y x
      rw [ih.1, hb.1, rowsCover]
      cases h : rowCovers x0 y0 r b [0, 1, 2, 3, 4, 5, 6, 7] y x
      · simp
      · simp [dis y x h]
    · rw [ih.2, hb.2]
      constructor
      · rintro ((h | ⟨y, x, h, h'⟩) | ⟨y, x, h, h'⟩)
        · exact .inl h
        · exact .inr ⟨y, x, by simp [rowsCover, h], h'⟩
        · refine .inr ⟨y, x, by simp [rowsCover, h], ?_⟩
          rw [hb.1] at h'
          cases hh : rowCovers x0 y0 r b [0, 1, 2, 3, 4, 5, 6, 7] y x
          · simpa [hh] using h'
          · rw [dis y x hh] at h; cases h
      · rintro (h | ⟨y, x, h, h'⟩)
        · exact .inl (.inl h)
        · simp only [rowsCover, Bool.or_eq_true] at h
          rcases h with h | h
          · exact .inl (.inr ⟨y, x, h, h'⟩)
          · refine .inr ⟨y, x, h, ?_⟩
            rw [hb.1]
            cases hh : rowCovers x0 y0 r b [0, 1, 2, 3, 4, 5, 6, 7] y x
            · simpa using h'
            · rw [dis y x hh] at h; cases h

/-- The covered pixels in the terms of rule R116. -/
theorem rowsCover_iff (x0 y0 : Byte) (r : Nat) (bs : List Byte) (y : Fin 32) (x : Fin 64) :
    rowsCover x0 y0 r bs y x = true ↔ ∃ k c b, bs[k]? = some b ∧ c < 8 ∧ b.getLsbD (7 - c) = true ∧
      (x0.toNat + c) % 64 = x.val ∧ (y0.toNat + (r + k)) % 32 = y.val := by
  induction bs generalizing r with
  | nil => simp [rowsCover]
  | cons b bs ih =>
    simp only [rowsCover, Bool.or_eq_true, ih]
    constructor
    · rintro (h | ⟨k, c, b', h1, h2, h3, h4, h5⟩)
      · simp only [rowCovers, List.any_eq_true, bitCovers, Bool.and_eq_true, decide_eq_true_eq] at h
        obtain ⟨c, hc, ⟨h1, h2⟩, h3⟩ := h
        refine ⟨0, c, b, rfl, by simp at hc; omega, h1, by rw [← h3]; rfl, by rw [← h2]; rfl⟩
      · exact ⟨k + 1, c, b', by simpa using h1, h2, h3, h4, by rw [← h5]; congr 2; omega⟩
    · rintro ⟨k, c, b', h1, h2, h3, h4, h5⟩
      cases k with
      | zero =>
        left
        simp only [List.getElem?_cons_zero, Option.some.injEq] at h1
        subst h1
        simp only [rowCovers, List.any_eq_true, bitCovers, Bool.and_eq_true, decide_eq_true_eq]
        exact ⟨c, by simp; omega, ⟨h3, Fin.ext h5⟩, Fin.ext h4⟩
      | succ k => right; exact ⟨k, c, b', by simpa using h1, h2, h3, h4, by rw [← h5]; congr 2; omega⟩

/-- The computed cover is `spriteCovers`. -/
theorem spriteCovers_iff (x0 y0 : Byte) (bs : List Byte) (y : Fin 32) (x : Fin 64) :
    spriteCovers x0 y0 bs y x ↔ rowsCover x0 y0 0 bs y x = true := by
  rw [rowsCover_iff]; simp only [Nat.zero_add, spriteCovers]

/-- A draw inverts exactly the covered pixels. -/
theorem drawSprite_get (fb : Framebuffer) (x0 y0 : Byte) (bs : List Byte) (h : bs.length ≤ 32) (y : Fin 32) (x : Fin 64) :
    (drawSprite fb x0 y0 bs).1.get y x = (fb.get y x ^^ rowsCover x0 y0 0 bs y x) :=
  (drawRows_spec x0 y0 0 bs (by omega) (fb, false)).1 y x

/-- A draw collides exactly when a covered pixel was set. -/
theorem drawSprite_collided (fb : Framebuffer) (x0 y0 : Byte) (bs : List Byte) (h : bs.length ≤ 32) :
    (drawSprite fb x0 y0 bs).2 = true ↔ ∃ y x, spriteCovers x0 y0 bs y x ∧ fb.get y x = true := by
  simp only [spriteCovers_iff]
  exact (drawRows_spec x0 y0 0 bs (by omega) (fb, false)).2.trans (by simp)

/-- The bytes a draw reads are its sprite. -/
theorem State.readBytes_eq_sprite (s : State) (n : Nat) : s.mem.readBytes s.params s.baseAddr n = s.sprite n := by
  apply List.ext_getElem?
  intro k
  rw [s.readBytes_getElem?]
  simp only [State.sprite, List.getElem?_map]
  by_cases h : k < n <;> simp [h]

end Sys2Proof.Machine
end

