-- ==== Sys2Proof/Laws/Exec.lean ====
section
/-!
SUPPORT. The two answers of each instruction that can fault (60_exceptions.md rules R122 to R124): what it does when it
completes, and when it does not. Every other instruction answers `next` by its definition.
-/

namespace Sys2Proof.Machine

@[simp] theorem State.regsTo_length (s : State) (x : Reg) : (s.regsTo x).length = x.toNat + 1 := by
  have := Reg.toNat_lt x
  simp [State.regsTo]; omega

/-- The `k`-th byte a bulk store writes is `V[k]`. -/
theorem State.regsTo_getElem (s : State) (x k : Reg) (h : k.toNat < (s.regsTo x).length) :
    (s.regsTo x)[k.toNat] = s.getV k := by
  simp [State.regsTo, State.getV]

@[simp] theorem bcdDigits_length (b : Byte) : (bcdDigits b).length = 3 := rfl

theorem execCall_cases (nnn : Addr12) (s : State) :
    (16 ≤ s.sp.toNat ∧ execCall nnn s = .fault .stackOverflow) ∨
    (∃ h : s.sp.toNat < 16, execCall nnn s = .next
      ((s.withStack (s.sp + 1) (s.stack.set s.sp.toNat s.pc h)).withPc (imm12 nnn))) := by
  unfold execCall
  rcases s.push_cases s.pc with ⟨h, e⟩ | ⟨h, e⟩ <;> rw [e]
  · exact .inl ⟨h, rfl⟩
  · exact .inr ⟨h, rfl⟩

theorem execRet_cases (s : State) :
    (s.sp.toNat = 0 ∧ execRet s = .fault .stackUnderflow) ∨
    (0 < s.sp.toNat ∧ execRet s = .next ((s.withStack (s.sp - 1) s.stack).withPc (s.stackAt (s.sp - 1)))) := by
  unfold execRet
  rcases s.popPc_cases with ⟨h, e⟩ | ⟨h, e⟩ <;> rw [e]
  · exact .inl ⟨h, rfl⟩
  · exact .inr ⟨h, rfl⟩

theorem execLdB_cases (x : Reg) (s : State) :
    (s.params.memSize ≤ s.baseAddr + 2 ∧ execLdB x s = .fault .addressFault) ∨
    (s.baseAddr + 2 < s.params.memSize ∧ execLdB x s = .next (s.pokeBytes s.baseAddr (bcdDigits (s.getV x)))) := by
  unfold execLdB
  rw [s.storeBytes_eq, bcdDigits_length]
  by_cases h : s.baseAddr + 2 < s.params.memSize
  · rw [if_pos (by omega)]; exact .inr ⟨h, rfl⟩
  · rw [if_neg (by omega)]; exact .inl ⟨by omega, rfl⟩

theorem execStoreRegs_cases (x : Reg) (s : State) :
    (s.params.memSize ≤ s.baseAddr + x.toNat ∧ execStoreRegs x s = .fault .addressFault) ∨
    (s.baseAddr + x.toNat < s.params.memSize ∧ execStoreRegs x s = .next (s.pokeBytes s.baseAddr (s.regsTo x))) := by
  unfold execStoreRegs
  rw [s.storeBytes_eq, s.regsTo_length]
  by_cases h : s.baseAddr + x.toNat < s.params.memSize
  · rw [if_pos (by omega)]; exact .inr ⟨h, rfl⟩
  · rw [if_neg (by omega)]; exact .inl ⟨by omega, rfl⟩

theorem execLoadRegs_cases (x : Reg) (s : State) :
    (s.params.memSize ≤ s.baseAddr + x.toNat ∧ execLoadRegs x s = .fault .addressFault) ∨
    (s.baseAddr + x.toNat < s.params.memSize ∧ execLoadRegs x s =
      .next (s.withV (setRegsFrom s.v 0 (s.mem.readBytes s.params s.baseAddr (x.toNat + 1))))) := by
  unfold execLoadRegs
  rw [s.loadBytes_eq]
  by_cases h : s.baseAddr + x.toNat < s.params.memSize
  · rw [if_pos (by omega)]; exact .inr ⟨h, rfl⟩
  · rw [if_neg (by omega)]; exact .inl ⟨by omega, rfl⟩

/-- What a draw that completes leaves: the new picture, and VF last. -/
theorem execDrw_cases (x y : Reg) (n : Nat) (s : State) :
    (0 < n ∧ s.params.memSize ≤ s.baseAddr + n - 1 ∧ execDrw x y n s = .fault .addressFault) ∨
    ((n = 0 ∨ s.baseAddr + n - 1 < s.params.memSize) ∧ execDrw x y n s =
      .next ((s.withFb (drawSprite s.fb (s.getV x) (s.getV y) (s.mem.readBytes s.params s.baseAddr n)).1).setV 0xF
        (flagByte (drawSprite s.fb (s.getV x) (s.getV y) (s.mem.readBytes s.params s.baseAddr n)).2))) := by
  unfold execDrw
  rw [s.loadBytes_eq]
  by_cases h : n = 0 ∨ s.baseAddr + n ≤ s.params.memSize
  · rw [if_pos h]; exact .inr ⟨by omega, rfl⟩
  · rw [if_neg h]; exact .inl ⟨by omega, by omega, rfl⟩

end Sys2Proof.Machine
end

