-- ==== Sys2Proof/Laws/Frame.lean ====
section
/-!
SUPPORT. The frame of each shared operation: which parts of the state it can change.
-/

namespace Sys2Proof.Machine

/-- A frame with fewer changes is a frame with more. -/
theorem OnlyChanges.mono {A B : Part → Prop} {s t : State} (h : OnlyChanges A s t) (hab : ∀ p, A p → B p) :
    OnlyChanges B s t := fun p hp => h p fun ha => hp (hab p ha)

theorem Part.same_refl (s : State) (p : Part) : p.same s s := by cases p <;> rfl

/-- Nothing changes from a state to itself. -/
theorem OnlyChanges.refl (A : Part → Prop) (s : State) : OnlyChanges A s s := fun p _ => p.same_refl s

theorem Part.same_trans {s t u : State} {p : Part} (h : p.same s t) (k : p.same t u) : p.same s u := by
  cases p <;> exact Eq.trans k h

/-- Frames compose: what neither changes is unchanged. -/
theorem OnlyChanges.trans {A : Part → Prop} {s t u : State} (h : OnlyChanges A s t) (k : OnlyChanges A t u) :
    OnlyChanges A s u := fun p hp => Part.same_trans (h p hp) (k p hp)

theorem onlyChanges_setV (s : State) (x : Reg) (b : Byte) : OnlyChanges (· = .reg x) s (s.setV x b) := by
  intro p hp
  cases p with
  | reg r => exact s.getV_setV_other b fun e => hp (by rw [e])
  | _ => rfl

theorem onlyChanges_setVFlag (s : State) (x : Reg) (q : Byte × Bool) :
    OnlyChanges (fun p => p = .reg x ∨ p = .reg 0xF) s (s.setVFlag x q) :=
  ((onlyChanges_setV s x q.1).mono fun _ => .inl).trans ((onlyChanges_setV _ 0xF _).mono fun _ => .inr)

theorem onlyChanges_withI (s : State) (w : Word) : OnlyChanges (· = .index) s (s.withI w) := by
  intro p hp
  cases p <;> first | rfl | exact absurd rfl hp

theorem onlyChanges_withPc (s : State) (w : Word) : OnlyChanges (· = .pc) s (s.withPc w) := by
  intro p hp
  cases p <;> first | rfl | exact absurd rfl hp

theorem onlyChanges_withDt (s : State) (b : Byte) : OnlyChanges (· = .delay) s (s.withDt b) := by
  intro p hp
  cases p <;> first | rfl | exact absurd rfl hp

theorem onlyChanges_withSt (s : State) (b : Byte) : OnlyChanges (· = .sound) s (s.withSt b) := by
  intro p hp
  cases p <;> first | rfl | exact absurd rfl hp

theorem onlyChanges_withWait (s : State) (w : Bool) (x : Reg) :
    OnlyChanges (fun p => p = .wait ∨ p = .waitX) s (s.withWait w x) := by
  intro p hp
  cases p <;> first | rfl | exact absurd (.inl rfl) hp | exact absurd (.inr rfl) hp

theorem onlyChanges_skipIf (s : State) (c : Bool) : OnlyChanges (· = .pc) s (s.skipIf c) := by
  unfold State.skipIf
  split_ifs
  · exact onlyChanges_withPc s _
  · exact OnlyChanges.refl _ s

/-- Bytes written change only the written range. -/
theorem onlyChanges_pokeBytes (s : State) (a : Nat) (bs : List Byte) :
    OnlyChanges (fun p => ∃ a', a ≤ a' ∧ a' < a + bs.length ∧ p = .byte a') s (s.pokeBytes a bs) := by
  intro p hp
  cases p with
  | byte a' =>
    refine s.peek_pokeBytes_outside ?_
    by_contra hc
    exact hp ⟨a', by omega, by omega, rfl⟩
  | _ => rfl

theorem onlyChanges_withFb (s : State) (fb : Framebuffer) :
    OnlyChanges (fun p => ∃ y x, p = .pixel y x) s (s.withFb fb) := by
  intro p hp
  cases p with
  | pixel y x => exact absurd ⟨y, x, rfl⟩ hp
  | _ => rfl

/-- The poll of a key wait changes at most the waiting register, `PC` and `WAIT` (rules R113, R115). -/
theorem onlyChanges_pollWait (s : State) :
    OnlyChanges (fun p => p = .reg s.waitX ∨ p = .pc ∨ p = .wait) s s.pollWait := by
  unfold State.pollWait
  cases s.leastKey with
  | none => exact OnlyChanges.refl _ s
  | some k =>
    intro p hp
    cases p with
    | reg r => exact s.getV_setV_other _ fun e => hp (.inl (by rw [e]))
    | pc => exact absurd (.inr (.inl rfl)) hp
    | wait => exact absurd (.inr (.inr rfl)) hp
    | _ => rfl

end Sys2Proof.Machine
end

