-- ==== Sys2Proof/Laws/PerInstr.lean ====
section
/-!
SUPPORT. Per instruction: its word belongs to its row of the opcode map (30_encoding.md rule R55), and that row is
one of the table's.
-/

namespace Sys2Proof.Laws.InItsRow

/-- The instruction's word has the fixed bits of its row, and the row is in the table (rule R55). -/
def Statement (i : Instr) : Prop := i.row.matches (encodeWord i) = true ∧ i.row ∈ opcodeTable

theorem fmtA_and (f g : Nibble) (a b : Addr12) : fmtA f a &&& fmtA g b = fmtA (f &&& g) (a &&& b) :=
  BitVec.and_append

theorem fmtXB_and (f g : Nibble) (x y : Reg) (a b : Byte) :
    fmtXB f x a &&& fmtXB g y b = fmtXB (f &&& g) (x &&& y) (a &&& b) :=
  BitVec.and_append.trans (congrArg (· ++ (a &&& b)) BitVec.and_append)

theorem fmtXYN_and (f g : Nibble) (x y x' y' : Reg) (n m : Nibble) :
    fmtXYN f x y n &&& fmtXYN g x' y' m = fmtXYN (f &&& g) (x &&& x') (y &&& y') (n &&& m) :=
  BitVec.and_append.trans (congrArg (· ++ (n &&& m))
    (BitVec.and_append.trans (congrArg (· ++ (y &&& y')) BitVec.and_append)))

theorem nibble_and_ones (f : Nibble) : f &&& 0xF = f := BitVec.and_allOnes

theorem byte_and_ones (b : Byte) : b &&& 0xFF = b := BitVec.and_allOnes

/-- A format-`A` word under the mask `0xF000` keeps its family alone. -/
theorem fmtA_mask (f : Nibble) (a : Addr12) : fmtA f a &&& 0xF000 = fmtA f 0 := by
  rw [(by decide : (0xF000 : Word) = fmtA 0xF 0), fmtA_and, nibble_and_ones]; simp

/-- A format-`XB` word under the mask `0xF000` keeps its family alone. -/
theorem fmtXB_mask (f : Nibble) (x : Reg) (nn : Byte) : fmtXB f x nn &&& 0xF000 = fmtXB f 0 0 := by
  rw [(by decide : (0xF000 : Word) = fmtXB 0xF 0 0), fmtXB_and, nibble_and_ones]; simp

/-- A format-`XF` word under the mask `0xF0FF` loses its register alone. -/
theorem fmtXF_mask (f : Nibble) (x : Reg) (nn : Byte) : fmtXB f x nn &&& 0xF0FF = fmtXB f 0 nn := by
  rw [(by decide : (0xF0FF : Word) = fmtXB 0xF 0 0xFF), fmtXB_and, nibble_and_ones, byte_and_ones]; simp

/-- A format-`XY` word under the mask `0xF00F` loses its registers alone. -/
theorem fmtXY_mask (f : Nibble) (x y : Reg) (n : Nibble) : fmtXYN f x y n &&& 0xF00F = fmtXYN f 0 0 n := by
  rw [(by decide : (0xF00F : Word) = fmtXYN 0xF 0 0 0xF), fmtXYN_and, nibble_and_ones, nibble_and_ones]; simp

/-- A format-`XYN` word under the mask `0xF000` keeps its family alone. -/
theorem fmtXYN_mask (f : Nibble) (x y : Reg) (n : Nibble) : fmtXYN f x y n &&& 0xF000 = fmtXYN f 0 0 0 := by
  rw [(by decide : (0xF000 : Word) = fmtXYN 0xF 0 0 0), fmtXYN_and, nibble_and_ones]; simp

/-- A row of the table, by its place. -/
theorem mem_table {r : OpcodeRow} (k : Nat) (h : opcodeTable[k]? = some r) : r ∈ opcodeTable :=
  List.mem_of_getElem? h

theorem cls : Statement (.cls) :=
  ⟨by decide, mem_table 0 rfl⟩

theorem ret : Statement (.ret) :=
  ⟨by decide, mem_table 1 rfl⟩

theorem jp (nnn : Addr12) : Statement (.jp nnn) :=
  ⟨beq_iff_eq.mpr (fmtA_mask ..), mem_table 2 rfl⟩

theorem call (nnn : Addr12) : Statement (.call nnn) :=
  ⟨beq_iff_eq.mpr (fmtA_mask ..), mem_table 3 rfl⟩

theorem seByte (x : Reg) (nn : Byte) : Statement (.seByte x nn) :=
  ⟨beq_iff_eq.mpr (fmtXB_mask ..), mem_table 4 rfl⟩

theorem sneByte (x : Reg) (nn : Byte) : Statement (.sneByte x nn) :=
  ⟨beq_iff_eq.mpr (fmtXB_mask ..), mem_table 5 rfl⟩

theorem seReg (x y : Reg) : Statement (.seReg x y) :=
  ⟨beq_iff_eq.mpr (fmtXY_mask ..), mem_table 6 rfl⟩

theorem ldByte (x : Reg) (nn : Byte) : Statement (.ldByte x nn) :=
  ⟨beq_iff_eq.mpr (fmtXB_mask ..), mem_table 7 rfl⟩

theorem addByte (x : Reg) (nn : Byte) : Statement (.addByte x nn) :=
  ⟨beq_iff_eq.mpr (fmtXB_mask ..), mem_table 8 rfl⟩

theorem ldReg (x y : Reg) : Statement (.ldReg x y) :=
  ⟨beq_iff_eq.mpr (fmtXY_mask ..), mem_table 9 rfl⟩

theorem orReg (x y : Reg) : Statement (.orReg x y) :=
  ⟨beq_iff_eq.mpr (fmtXY_mask ..), mem_table 10 rfl⟩

theorem andReg (x y : Reg) : Statement (.andReg x y) :=
  ⟨beq_iff_eq.mpr (fmtXY_mask ..), mem_table 11 rfl⟩

theorem xorReg (x y : Reg) : Statement (.xorReg x y) :=
  ⟨beq_iff_eq.mpr (fmtXY_mask ..), mem_table 12 rfl⟩

theorem addReg (x y : Reg) : Statement (.addReg x y) :=
  ⟨beq_iff_eq.mpr (fmtXY_mask ..), mem_table 13 rfl⟩

theorem sub (x y : Reg) : Statement (.sub x y) :=
  ⟨beq_iff_eq.mpr (fmtXY_mask ..), mem_table 14 rfl⟩

theorem shr (x y : Reg) : Statement (.shr x y) :=
  ⟨beq_iff_eq.mpr (fmtXY_mask ..), mem_table 15 rfl⟩

theorem subn (x y : Reg) : Statement (.subn x y) :=
  ⟨beq_iff_eq.mpr (fmtXY_mask ..), mem_table 16 rfl⟩

theorem shl (x y : Reg) : Statement (.shl x y) :=
  ⟨beq_iff_eq.mpr (fmtXY_mask ..), mem_table 17 rfl⟩

theorem sneReg (x y : Reg) : Statement (.sneReg x y) :=
  ⟨beq_iff_eq.mpr (fmtXY_mask ..), mem_table 18 rfl⟩

theorem ldI (nnn : Addr12) : Statement (.ldI nnn) :=
  ⟨beq_iff_eq.mpr (fmtA_mask ..), mem_table 19 rfl⟩

theorem jpV0 (nnn : Addr12) : Statement (.jpV0 nnn) :=
  ⟨beq_iff_eq.mpr (fmtA_mask ..), mem_table 20 rfl⟩

theorem rnd (x : Reg) (nn : Byte) : Statement (.rnd x nn) :=
  ⟨beq_iff_eq.mpr (fmtXB_mask ..), mem_table 21 rfl⟩

theorem drw (x y : Reg) (n : Nat) : Statement (.drw x y n) :=
  ⟨beq_iff_eq.mpr (fmtXYN_mask ..), mem_table 22 rfl⟩

theorem skp (x : Reg) : Statement (.skp x) :=
  ⟨beq_iff_eq.mpr (fmtXF_mask ..), mem_table 23 rfl⟩

theorem sknp (x : Reg) : Statement (.sknp x) :=
  ⟨beq_iff_eq.mpr (fmtXF_mask ..), mem_table 24 rfl⟩

theorem ldVxDt (x : Reg) : Statement (.ldVxDt x) :=
  ⟨beq_iff_eq.mpr (fmtXF_mask ..), mem_table 25 rfl⟩

theorem ldVxK (x : Reg) : Statement (.ldVxK x) :=
  ⟨beq_iff_eq.mpr (fmtXF_mask ..), mem_table 26 rfl⟩

theorem ldDtVx (x : Reg) : Statement (.ldDtVx x) :=
  ⟨beq_iff_eq.mpr (fmtXF_mask ..), mem_table 27 rfl⟩

theorem ldStVx (x : Reg) : Statement (.ldStVx x) :=
  ⟨beq_iff_eq.mpr (fmtXF_mask ..), mem_table 28 rfl⟩

theorem addI (x : Reg) : Statement (.addI x) :=
  ⟨beq_iff_eq.mpr (fmtXF_mask ..), mem_table 29 rfl⟩

theorem ldF (x : Reg) : Statement (.ldF x) :=
  ⟨beq_iff_eq.mpr (fmtXF_mask ..), mem_table 30 rfl⟩

theorem ldB (x : Reg) : Statement (.ldB x) :=
  ⟨beq_iff_eq.mpr (fmtXF_mask ..), mem_table 31 rfl⟩

theorem storeRegs (x : Reg) : Statement (.storeRegs x) :=
  ⟨beq_iff_eq.mpr (fmtXF_mask ..), mem_table 32 rfl⟩

theorem loadRegs (x : Reg) : Statement (.loadRegs x) :=
  ⟨beq_iff_eq.mpr (fmtXF_mask ..), mem_table 33 rfl⟩

end Sys2Proof.Laws.InItsRow
end

