-- ==== Sys2Proof/Laws/Step.lean ====
section
/-!
SUPPORT. Everything a step can do, once: the inversions of the step cycle (30_encoding.md rule R54).
-/

namespace Sys2Proof.Machine

/-- A step of an engine that is faulted, waits for a key, or runs an instruction. -/
theorem stepWith_cases (rnd : Byte) (s : State) :
    (s.faultKind.isSome = true ∧ stepWith rnd s = .next s) ∨
    (s.faultKind = none ∧ s.wait = true ∧ stepWith rnd s = .next s.pollWait) ∨
    (s.faultKind = none ∧ s.wait = false ∧ stepWith rnd s = runInstr rnd s) := by
  unfold stepWith
  cases hf : s.faultKind with
  | some k => exact .inl ⟨rfl, rfl⟩
  | none => cases hw : s.wait <;> simp

/-- The instruction cycle fetches, decodes and executes, and stops at the first check that fails (rule R128). -/
theorem runInstr_cases (rnd : Byte) (s : State) :
    (s.params.memSize ≤ s.pc.toNat + 1 ∧ runInstr rnd s = .fault .addressFault) ∨
    (∃ op, s.fetch = .ok op ∧ (∃ e, decodeWord op = .error e) ∧ runInstr rnd s = .fault .invalidOpcode) ∨
    (∃ op i, s.fetch = .ok op ∧ decodeWord op = .ok i ∧ runInstr rnd s = exec i (s.ready rnd)) := by
  unfold runInstr
  cases hf : s.fetch with
  | error k =>
    unfold State.fetch State.memRead16 at hf
    split_ifs at hf with h
    obtain rfl := (Except.error.inj hf).symm
    exact .inl ⟨by omega, rfl⟩
  | ok op =>
    cases hd : decodeWord op with
    | error e => exact .inr (.inl ⟨op, rfl, ⟨e, hd⟩, by simp [raise, hd]⟩)
    | ok i => exact .inr (.inr ⟨op, i, rfl, hd, by simp [hd]⟩)

/-- A step that answers a next state left a faulted engine alone, polled the keys, or ran one decoded instruction. -/
theorem stepWith_next_cases {rnd : Byte} {s t : State} (h : stepWith rnd s = .next t) :
    (s.faultKind.isSome = true ∧ t = s) ∨
    (s.faultKind = none ∧ s.wait = true ∧ t = s.pollWait) ∨
    (s.faultKind = none ∧ s.wait = false ∧
      ∃ op i, s.fetch = .ok op ∧ decodeWord op = .ok i ∧ exec i (s.ready rnd) = .next t) := by
  rcases stepWith_cases rnd s with ⟨hf, e⟩ | ⟨hf, hw, e⟩ | ⟨hf, hw, e⟩
  · rw [e] at h; exact .inl ⟨hf, (Host.Outcome.next.inj h).symm⟩
  · rw [e] at h; exact .inr (.inl ⟨hf, hw, (Host.Outcome.next.inj h).symm⟩)
  · rw [e] at h
    rcases runInstr_cases rnd s with ⟨_, e2⟩ | ⟨op, _, _, e2⟩ | ⟨op, i, hop, hi, e2⟩
    · rw [e2] at h; cases h
    · rw [e2] at h; cases h
    · rw [e2] at h; exact .inr (.inr ⟨hf, hw, op, i, hop, hi, h⟩)

/-- A poll completes the wait with the least key that is down, or changes nothing (rule R113). -/
theorem State.pollWait_cases (s : State) :
    ((∀ k : Nibble, s.key k = false) ∧ s.pollWait = s) ∨
    (∃ k, s.leastKey = some k ∧
      s.pollWait = ((s.setV s.waitX (BitVec.ofNat 8 k)).advancePc).withWait false s.waitX) := by
  unfold State.pollWait
  cases h : s.leastKey with
  | none => exact .inl ⟨s.leastKey_none.mp h, rfl⟩
  | some k => exact .inr ⟨k, rfl, rfl⟩

/-- A load on an engine that is not faulted copies the image or raises `RomTooLarge` (rule R42). -/
theorem loadEvent_live {s : State} (bytes : List Byte) (h : s.faultKind = none) : loadEvent bytes s =
    if 0x200 + bytes.length ≤ s.params.memSize then .next (s.pokeBytes 0x200 bytes) else .fault .romTooLarge := by
  unfold loadEvent; rw [h]; rfl

@[simp] theorem countDown_toNat (b : Byte) : (countDown b).toNat = b.toNat - 1 := by
  revert b; decide

/-- A faulted engine ignores a load (rule R129). -/
theorem loadEvent_faulted {s : State} (bytes : List Byte) (h : s.faultKind.isSome = true) :
    loadEvent bytes s = .next s := if_pos h

/-- A faulted engine does not move (rule R129). -/
theorem stepWith_faulted {s : State} (rnd : Byte) (h : s.faultKind.isSome = true) : stepWith rnd s = .next s :=
  if_pos h

/-- A run of two lists of events is the run of the one after the run of the other. -/
theorem runEvents_append (es es' : List Event) (s : State) :
    runEvents (es ++ es') s = runEvents es' (runEvents es s) := by
  induction es generalizing s with
  | nil => rfl
  | cons e es ih => exact ih _

end Sys2Proof.Machine
end

