-- ==== Sys2Proof/Tests/Slice0.lean ====
section
/-!
SUPPORT. Tests of the model, each about one event on a small state. The words and the expected results are those of
spec/95_test_vectors.md (the vector's id stands in the docstring) or are worked out by hand from the named rule.
The last part shows, for every statement that has hypotheses, a concrete state and operands that meet them.
-/

namespace Sys2Proof.Tests

open Sys2Proof.Machine

/-! ### Helpers -/

/-- Did the event complete, in a state that passes? -/
def nextAnd (o : Result) (ok : State → Bool) : Bool :=
  match o with
  | .next t => ok t
  | _ => false

/-- Did the event end in this fault? -/
def faultsWith (o : Result) (k : Fault) : Bool :=
  match o with
  | .fault k2 => decide (k2 = k)
  | _ => false

/-- The reset state with registers preset. -/
def preset (rs : List (Reg × Byte)) : State := rs.foldl (fun s r => s.setV r.1 r.2) State.reset

/-- One `Step` of a word placed at `PC`, with the random input 0. -/
def run (w : Word) (s : State) : Result := stepWith 0 (s.placeWord w)

/-- The reset state with the return stack at a depth, its top entry being the word. -/
def atDepth (n : Byte) (w : Word) : State := State.reset.withStack n (Vector.replicate 16 w)

/-- The reset state with keys down. -/
def pressed (ks : List Nibble) (s : State) : State := ks.foldl (fun s k => s.setKey k true) s

/-- The parameters with `SHIFT_SOURCE_VY`. -/
def vyParams : Params :=
  match Params.default with
  | ⟨m, _, e, b, st, f⟩ => ⟨m, true, e, b, st, f⟩

/-! ### Well-formedness: each check refuses an ill-formed term (rules R4, R36, R37, R53) -/

/-- The largest sprite height is well formed. -/
theorem test_wf_height_15 : (Instr.drw 0x0 0x1 15).wellFormed = true := by decide
/-- A sprite height outside its field is refused (R53). -/
theorem test_wf_height_16 : (Instr.drw 0x0 0x1 16).wellFormed = false := by decide
/-- The default parameters are legal (R4). -/
theorem test_wf_default_params : Params.default.legal = true := by decide
/-- A memory below 0x202 bytes is refused (R4). -/
theorem test_wf_memory_too_small : (Params.mk 0x201 false true 0 5 defaultFont).legal = false := by decide
/-- A memory above 65536 bytes is refused (R4). -/
theorem test_wf_memory_too_large : (Params.mk 65537 false true 0 5 defaultFont).legal = false := by decide
/-- A font that is not sixteen glyphs of the stride is refused (R37). -/
theorem test_wf_font_length : (Params.mk 4096 false true 0 6 defaultFont).legal = false := by decide
/-- A font outside the reserved low region is refused (R36). -/
theorem test_wf_font_region : (Params.mk 4096 false true 0x1B1 5 defaultFont).legal = false := by decide
/-- A font that ends the reserved low region is legal (R36). -/
theorem test_wf_font_region_edge : (Params.mk 4096 false true 0x1B0 5 defaultFont).legal = true := by decide

/-! ### Decoding: a word of each row, written out from 30_encoding.md (rules R52, R55) -/

theorem test_decode_cls : decodeWord 0x00E0 = .ok (.cls) := by decide
theorem test_decode_ret : decodeWord 0x00EE = .ok (.ret) := by decide
theorem test_decode_jp : decodeWord 0x1ABC = .ok (.jp 0xABC) := by decide
theorem test_decode_call : decodeWord 0x2ABC = .ok (.call 0xABC) := by decide
theorem test_decode_seByte : decodeWord 0x3A42 = .ok (.seByte 0xA 0x42) := by decide
theorem test_decode_sneByte : decodeWord 0x4A42 = .ok (.sneByte 0xA 0x42) := by decide
theorem test_decode_seReg : decodeWord 0x5AB0 = .ok (.seReg 0xA 0xB) := by decide
theorem test_decode_ldByte : decodeWord 0x6A02 = .ok (.ldByte 0xA 0x02) := by decide
theorem test_decode_addByte : decodeWord 0x7003 = .ok (.addByte 0x0 0x03) := by decide
theorem test_decode_ldReg : decodeWord 0x8120 = .ok (.ldReg 0x1 0x2) := by decide
theorem test_decode_orReg : decodeWord 0x8121 = .ok (.orReg 0x1 0x2) := by decide
theorem test_decode_andReg : decodeWord 0x8122 = .ok (.andReg 0x1 0x2) := by decide
theorem test_decode_xorReg : decodeWord 0x8123 = .ok (.xorReg 0x1 0x2) := by decide
theorem test_decode_addReg : decodeWord 0x8AB4 = .ok (.addReg 0xA 0xB) := by decide
theorem test_decode_sub : decodeWord 0x8125 = .ok (.sub 0x1 0x2) := by decide
theorem test_decode_shr : decodeWord 0x8126 = .ok (.shr 0x1 0x2) := by decide
theorem test_decode_subn : decodeWord 0x8127 = .ok (.subn 0x1 0x2) := by decide
theorem test_decode_shl : decodeWord 0x812E = .ok (.shl 0x1 0x2) := by decide
theorem test_decode_sneReg : decodeWord 0x9AB0 = .ok (.sneReg 0xA 0xB) := by decide
theorem test_decode_ldI : decodeWord 0xA123 = .ok (.ldI 0x123) := by decide
theorem test_decode_jpV0 : decodeWord 0xB300 = .ok (.jpV0 0x300) := by decide
theorem test_decode_rnd : decodeWord 0xC30F = .ok (.rnd 0x3 0x0F) := by decide
theorem test_decode_drw : decodeWord 0xD012 = .ok (.drw 0x0 0x1 2) := by decide
theorem test_decode_skp : decodeWord 0xE29E = .ok (.skp 0x2) := by decide
theorem test_decode_sknp : decodeWord 0xE2A1 = .ok (.sknp 0x2) := by decide
theorem test_decode_ldVxDt : decodeWord 0xF407 = .ok (.ldVxDt 0x4) := by decide
theorem test_decode_ldVxK : decodeWord 0xF30A = .ok (.ldVxK 0x3) := by decide
theorem test_decode_ldDtVx : decodeWord 0xF315 = .ok (.ldDtVx 0x3) := by decide
theorem test_decode_ldStVx : decodeWord 0xF318 = .ok (.ldStVx 0x3) := by decide
theorem test_decode_addI : decodeWord 0xF21E = .ok (.addI 0x2) := by decide
theorem test_decode_ldF : decodeWord 0xF429 = .ok (.ldF 0x4) := by decide
theorem test_decode_ldB : decodeWord 0xF033 = .ok (.ldB 0x0) := by decide
theorem test_decode_storeRegs : decodeWord 0xF255 = .ok (.storeRegs 0x2) := by decide
theorem test_decode_loadRegs : decodeWord 0xF265 = .ok (.loadRegs 0x2) := by decide

/-- DC1, DC2: family 0 has exactly two words. -/
theorem test_decode_illegal_family_0 :
    [0x0000, 0x00E1, 0x00EF, 0x0123, 0x01E0].map decodeWord = List.replicate 5 (.error .invalidOpcode) := by decide
/-- DC5: the illegal sub-opcodes of families 5, 8 and 9. -/
theorem test_decode_illegal_families_5_8_9 :
    [0x5121, 0x8128, 0x8129, 0x812A, 0x812B, 0x812C, 0x812D, 0x812F, 0x9121].map decodeWord =
      List.replicate 9 (.error .invalidOpcode) := by decide
/-- DC6: the illegal function codes of families E and F. -/
theorem test_decode_illegal_families_E_F :
    [0xE29F, 0xE200, 0xF200, 0xF2FF, 0xF275, 0xF285, 0xF230, 0xF202].map decodeWord =
      List.replicate 8 (.error .invalidOpcode) := by decide
/-- R50: the byte at the lower address is the more significant; the bytes after an instruction are left over. -/
theorem test_decode_bytes : decode [0x6A, 0x02, 0x6B] = .ok (.ldByte 0xA 0x02, [0x6B]) := by decide
/-- R50: one byte is no instruction. -/
theorem test_decode_one_byte : decode [0x6A] = .error .truncated := by decide
/-- R50, R52: the bytes of a sprite draw. -/
theorem test_encode_drw : encode (.drw 0x0 0x1 5) = [0xD0, 0x15] := by decide
/-- The table's numbering: bit 0 is the least significant bit of the word. -/
theorem test_table_word : decodeTableWord 16 0xD015 = some (.drw 0x0 0x1 5) := by decide

/-! ### Control flow -/

/-- CF3. -/
theorem test_jp :
    nextAnd (run 0x1FFF State.reset) (fun t => decide (t.pc = 0x0FFF)) = true := by decide
/-- CF5. -/
theorem test_call_deepest :
    nextAnd (run 0x2ABC (atDepth 15 0))
      (fun t => decide (t.stack[15] = 0x0202 ∧ t.sp = 16 ∧ t.pc = 0x0ABC)) = true := by decide
/-- CF6. -/
theorem test_call_overflow :
    faultsWith (run 0x2ABC (atDepth 16 0)) .stackOverflow = true := by decide
/-- CF7. -/
theorem test_ret :
    nextAnd (run 0x00EE (atDepth 1 0x0456))
      (fun t => decide (t.sp = 0 ∧ t.pc = 0x0456 ∧ t.stack[0] = 0x0456)) = true := by decide
/-- CF8. -/
theorem test_ret_underflow :
    faultsWith (run 0x00EE State.reset) .stackUnderflow = true := by decide
/-- CF10. -/
theorem test_seByte_equal :
    nextAnd (run 0x3A42 (preset [(0xA, 0x42)])) (fun t => decide (t.pc = 0x0204)) = true := by decide
/-- CF11. -/
theorem test_seByte_differs :
    nextAnd (run 0x3A42 (preset [(0xA, 0x43)])) (fun t => decide (t.pc = 0x0202)) = true := by decide
/-- CF12. -/
theorem test_sneByte_equal :
    nextAnd (run 0x4A42 (preset [(0xA, 0x42)])) (fun t => decide (t.pc = 0x0202)) = true := by decide
/-- CF13. -/
theorem test_sneByte_differs :
    nextAnd (run 0x4A42 (preset [(0xA, 0x43)])) (fun t => decide (t.pc = 0x0204)) = true := by decide
/-- CF14. -/
theorem test_seReg_equal :
    nextAnd (run 0x5AB0 (preset [(0xA, 0x07), (0xB, 0x07)]))
      (fun t => decide (t.pc = 0x0204)) = true := by decide
/-- CF15. -/
theorem test_seReg_differs :
    nextAnd (run 0x5AB0 (preset [(0xA, 0x07), (0xB, 0x08)]))
      (fun t => decide (t.pc = 0x0202)) = true := by decide
/-- CF17. -/
theorem test_sneReg_equal :
    nextAnd (run 0x9AB0 (preset [(0xA, 0x07), (0xB, 0x07)]))
      (fun t => decide (t.pc = 0x0202)) = true := by decide
/-- CF18. -/
theorem test_sneReg_differs :
    nextAnd (run 0x9AB0 (preset [(0xA, 0x07), (0xB, 0x08)]))
      (fun t => decide (t.pc = 0x0204)) = true := by decide
/-- CF21: the sum is not reduced to 12 bits. -/
theorem test_jpV0_carries :
    nextAnd (run 0xBFFF (preset [(0x0, 0xFF)])) (fun t => decide (t.pc = 0x10FE)) = true := by decide

/-! ### Register operations -/

/-- RG2. -/
theorem test_ldByte_vf :
    nextAnd (run 0x6FFF State.reset) (fun t => decide (t.getV 0xF = 0xFF)) = true := by decide
/-- RG3. -/
theorem test_addByte_no_flag :
    nextAnd (run 0x7003 (preset [(0x0, 0xFE), (0xF, 0x55)]))
      (fun t => decide (t.getV 0x0 = 0x01 ∧ t.getV 0xF = 0x55)) = true := by decide
/-- RG7. -/
theorem test_ldReg :
    nextAnd (run 0x8120 (preset [(0x1, 0x11), (0x2, 0x22)]))
      (fun t => decide (t.getV 0x1 = 0x22 ∧ t.getV 0x2 = 0x22)) = true := by decide
/-- RG13. -/
theorem test_orReg :
    nextAnd (run 0x8121 (preset [(0x1, 0xF3), (0x2, 0x3F), (0xF, 0x77)]))
      (fun t => decide (t.getV 0x1 = 0xFF ∧ t.getV 0xF = 0x77)) = true := by decide
/-- RG13. -/
theorem test_andReg :
    nextAnd (run 0x8122 (preset [(0x1, 0xF3), (0x2, 0x3F), (0xF, 0x77)]))
      (fun t => decide (t.getV 0x1 = 0x33 ∧ t.getV 0xF = 0x77)) = true := by decide
/-- RG13. -/
theorem test_xorReg :
    nextAnd (run 0x8123 (preset [(0x1, 0xF3), (0x2, 0x3F), (0xF, 0x77)]))
      (fun t => decide (t.getV 0x1 = 0xCC ∧ t.getV 0xF = 0x77)) = true := by decide
/-- RG23. -/
theorem test_addReg_carry :
    nextAnd (run 0x8124 (preset [(0x1, 0x64), (0x2, 0x9C)]))
      (fun t => decide (t.getV 0x1 = 0x00 ∧ t.getV 0xF = 1)) = true := by decide
/-- RG33: the flag overwrites the result. -/
theorem test_addReg_vf_destination :
    nextAnd (run 0x8F24 (preset [(0xF, 0x10), (0x2, 0x20)]))
      (fun t => decide (t.getV 0xF = 0x00)) = true := by decide
/-- RG23. -/
theorem test_sub_borrow :
    nextAnd (run 0x8125 (preset [(0x1, 0x64), (0x2, 0x9C)]))
      (fun t => decide (t.getV 0x1 = 0xC8 ∧ t.getV 0xF = 0)) = true := by decide
/-- RG39: no borrow between equal operands. -/
theorem test_sub_equal :
    nextAnd (run 0x8335 (preset [(0x3, 0xC0)]))
      (fun t => decide (t.getV 0x3 = 0x00 ∧ t.getV 0xF = 1)) = true := by decide
/-- RG23. -/
theorem test_subn_no_borrow :
    nextAnd (run 0x8127 (preset [(0x1, 0x64), (0x2, 0x9C)]))
      (fun t => decide (t.getV 0x1 = 0x38 ∧ t.getV 0xF = 1)) = true := by decide
/-- RG19. -/
theorem test_subn_borrow :
    nextAnd (run 0x8127 (preset [(0x1, 0x07), (0x2, 0x05)]))
      (fun t => decide (t.getV 0x1 = 0xFE ∧ t.getV 0xF = 0)) = true := by decide
/-- RG28: `V2` is ignored by default. -/
theorem test_shr :
    nextAnd (run 0x8126 (preset [(0x1, 0x81), (0x2, 0x33)]))
      (fun t => decide (t.getV 0x1 = 0x40 ∧ t.getV 0xF = 1)) = true := by decide
/-- RG31. -/
theorem test_shl :
    nextAnd (run 0x812E (preset [(0x1, 0xAA), (0x2, 0x33)]))
      (fun t => decide (t.getV 0x1 = 0x54 ∧ t.getV 0xF = 1)) = true := by decide
/-- The vector of section 2.2 with `SHIFT_SOURCE_VY`. -/
theorem test_shr_vy :
    nextAnd (run 0x8126 (((State.resetWith vyParams).setV 0x1 0xAA).setV 0x2 0x33))
      (fun t => decide (t.getV 0x1 = 0x19 ∧ t.getV 0xF = 1 ∧ t.getV 0x2 = 0x33)) = true := by decide
/-- The vector of section 2.2 with `SHIFT_SOURCE_VY`. -/
theorem test_shl_vy :
    nextAnd (run 0x812E (((State.resetWith vyParams).setV 0x1 0xAA).setV 0x2 0x33))
      (fun t => decide (t.getV 0x1 = 0x66 ∧ t.getV 0xF = 0 ∧ t.getV 0x2 = 0x33)) = true := by decide

/-! ### Index and memory -/

/-- IM2. -/
theorem test_ldI :
    nextAnd (run 0xAFFF State.reset) (fun t => decide (t.i = 0x0FFF)) = true := by decide
/-- IM5. -/
theorem test_addI_wraps :
    nextAnd (run 0xF21E ((preset [(0x2, 0x01), (0xF, 0x09)]).withI 0xFFFF))
      (fun t => decide (t.i = 0x0000 ∧ t.getV 0xF = 0x09)) = true := by decide
/-- IM12. -/
theorem test_ldF_low_nibble :
    nextAnd (run 0xF429 (preset [(0x4, 0x1B)])) (fun t => decide (t.i = 0x0037)) = true := by decide
/-- IM20. -/
theorem test_ldB :
    nextAnd (run 0xF033 ((preset [(0x0, 0xFE)]).withI 0x0300))
      (fun t => decide ([t.peek 0x300, t.peek 0x301, t.peek 0x302] = [2, 5, 4])) = true := by decide
/-- IM30. -/
theorem test_ldB_faults :
    faultsWith (run 0xF033 (State.reset.withI 0x0FFE)) .addressFault = true := by decide
/-- IM24: registers 0 to x inclusive. -/
theorem test_storeRegs :
    nextAnd (run 0xF255 ((preset [(0x0, 1), (0x1, 2), (0x2, 3), (0x3, 4)]).withI 0x0400))
      (fun t => decide ([t.peek 0x400, t.peek 0x401, t.peek 0x402, t.peek 0x403] = [1, 2, 3, 0] ∧ t.i = 0x0400)) = true := by
  decide
/-- IM28. -/
theorem test_storeRegs_faults :
    faultsWith (run 0xF155 (State.reset.withI 0x0FFF)) .addressFault = true := by decide
/-- IM33, with the next glyph byte. -/
theorem test_loadRegs_font :
    nextAnd (run 0xF165 State.reset)
      (fun t => decide (t.getV 0x0 = 0xF0 ∧ t.getV 0x1 = 0x90)) = true := by decide
/-- IM35: the sum is not wrapped. -/
theorem test_loadRegs_faults :
    faultsWith (run 0xF065 (State.reset.withI 0xFFFF)) .addressFault = true := by decide

/-! ### Random, timers, input -/

/-- RN1. -/
theorem test_rnd :
    nextAnd (stepWith 0xA7 (State.reset.placeWord 0xC30F))
      (fun t => decide (t.getV 0x3 = 0x07)) = true := by decide
/-- TM3. -/
theorem test_ldVxDt :
    nextAnd (run 0xF407 (State.reset.withDt 0x03))
      (fun t => decide (t.getV 0x4 = 0x03 ∧ t.dt = 0x03)) = true := by decide
/-- TM1. -/
theorem test_ldDtVx :
    nextAnd (run 0xF315 (preset [(0x3, 0x05)])) (fun t => decide (t.dt = 0x05 ∧ t.st = 0)) = true := by decide
/-- TM2. -/
theorem test_ldStVx :
    nextAnd (run 0xF318 (preset [(0x3, 0x02)]))
      (fun t => decide (t.st = 0x02 ∧ t.soundOn = true ∧ t.dt = 0)) = true := by decide
/-- IN5. -/
theorem test_skp_low_nibble :
    nextAnd (run 0xE29E (pressed [0x5] (preset [(0x2, 0x15)])))
      (fun t => decide (t.pc = 0x0204)) = true := by decide
/-- IN7. -/
theorem test_skp_other_key :
    nextAnd (run 0xE29E (pressed [0x6] (preset [(0x2, 0x05)])))
      (fun t => decide (t.pc = 0x0202)) = true := by decide
/-- IN3. -/
theorem test_sknp_down :
    nextAnd (run 0xE2A1 (pressed [0x5] (preset [(0x2, 0x05)])))
      (fun t => decide (t.pc = 0x0202)) = true := by decide
/-- IN4. -/
theorem test_sknp_up :
    nextAnd (run 0xE2A1 (preset [(0x2, 0x05)])) (fun t => decide (t.pc = 0x0204)) = true := by decide
/-- IN10, first step: the wait begins although a key is down. -/
theorem test_ldVxK_first_step :
    nextAnd (run 0xF30A (pressed [0x5] State.reset))
      (fun t => decide (t.wait = true ∧ t.waitX = 0x3 ∧ t.pc = 0x0200 ∧ t.getV 0x3 = 0)) = true := by decide
/-- IN11, second step: the lowest number wins. -/
theorem test_ldVxK_later_step :
    nextAnd (stepWith 0 ((pressed [0x3, 0x9, 0xC] State.reset).withWait true 0xF))
      (fun t => decide (t.getV 0xF = 0x03 ∧ t.pc = 0x0202 ∧ t.wait = false)) = true := by decide

/-! ### Display -/

/-- DR10. -/
theorem test_cls :
    nextAnd (run 0x00E0 ((State.reset.withFb (Framebuffer.blank.flip 3 7)).setV 0xF 0x01))
      (fun t => !t.pixel 3 7 && decide (t.getV 0xF = 0x01)) = true := by decide
/-- DR4, its second row: row 32 is row 0, column 64 is column 0. -/
theorem test_drw_wraps :
    nextAnd (run 0xD012 (((preset [(0x0, 0x7E), (0x1, 0xFF)]).pokeBytes 0x300 [0x81, 0xC0]).withI 0x0300))
      (fun t => t.pixel 31 62 && t.pixel 31 5 && t.pixel 0 62 && t.pixel 0 63 &&
      !t.pixel 31 63 && !t.pixel 0 0 && decide (t.getV 0xF = 0)) = true := by decide
/-- DR2: drawing over the same pixels clears them. -/
theorem test_drw_collides :
    nextAnd (run 0xD011 (((State.reset.withFb (drawSprite Framebuffer.blank 0 0 [0xFF]).1).pokeBytes 0x300 [0xFF]).withI 0x0300))
      (fun t => !t.pixel 0 0 && !t.pixel 0 7 && decide (t.getV 0xF = 1)) = true := by decide

/-! ### Events, faults and the host's protocol -/

/-- TK3. -/
theorem test_tick :
    (fun t => decide (t.dt = 0xFE ∧ t.st = 0x00 ∧ t.soundOn = false)) (event .tick ((State.reset.withDt 0xFF).withSt 0x01)) = true := by
  decide
/-- IN8: the latch holds levels. -/
theorem test_setKey_level :
    (runEvents [.setKey 0x5 true, .setKey 0x5 false] State.reset).key 0x5 = false := by decide
/-- LD4. -/
theorem test_load :
    nextAnd (loadEvent [0x12, 0x00] State.reset)
      (fun t => decide (t.peek 0x200 = 0x12 ∧ t.peek 0x201 = 0x00 ∧ t.peek 0x04F = 0x80 ∧ t.pc = 0x0200)) = true := by
  decide
/-- R42, with a small memory. -/
theorem test_load_too_large :
    faultsWith (loadEvent [1, 2, 3] (State.resetWith ⟨0x202, false, true, 0, 5, defaultFont⟩)) .romTooLarge = true := by
  decide
/-- R126: `RomTooLarge` is code 5. -/
theorem test_load_fault_code :
    (event (.load [1, 2, 3]) (State.resetWith ⟨0x202, false, true, 0, 5, defaultFont⟩)).faultCode = 5 := by decide
/-- RS2: no `Load`. -/
theorem test_invalid_opcode :
    faultsWith (stepWith 0 State.reset) .invalidOpcode = true := by decide
/-- DC1: the code of `InvalidOpcode`. -/
theorem test_fault_code :
    (event (.step 0) State.reset).faultCode = 4 := by decide
/-- P10: the fetch needs 0FFF and 1000. -/
theorem test_fetch_at_the_end :
    faultsWith (stepWith 0 (State.reset.withPc 0x0FFF)) .addressFault = true := by decide
/-- P11: there is no alignment rule. -/
theorem test_odd_address :
    nextAnd (run 0x6042 (State.reset.withPc 0x0203))
      (fun t => decide (t.getV 0x0 = 0x42 ∧ t.pc = 0x0205)) = true := by decide
/-- R129. -/
theorem test_faulted_engine_ignores_step :
    (event (.step 0) (event (.step 0) State.reset)).faultKind = some .invalidOpcode := by decide
/-- R128, R139: the tick of a cycle comes before its step, which then sees the timer at 4. -/
theorem test_port_order :
    (portCycle ⟨false, true, none, some 0⟩ ((State.reset.withDt 5).placeWord 0xF407)).getV 0x4 = 4 := by decide
/-- R128: `Reset` wins over everything presented with it. -/
theorem test_port_reset_wins :
    (portCycle ⟨true, true, some (0x5, true), some 0⟩ (State.reset.withDt 5)).key 0x5 = false := by decide
/-- R136: the outputs read one pixel. -/
theorem test_pixelAt :
    (State.reset.withFb (Framebuffer.blank.flip 31 62)).pixelAt 62 31 = true := by decide
/-- D25, U10. -/
theorem test_late_load_has_no_move :
    ((Session.start Params.default).run [.step 0, .load []]).isNone = true := by decide
/-- R43. -/
theorem test_early_load_has_a_move :
    ((Session.start Params.default).run [.setKey 0x1 true, .load [0x12, 0x00]]).isSome = true := by decide
/-- The machine's own step, on a word placed where it fetches. -/
theorem test_step_runs_the_placed_word :
    nextAnd (step (State.reset.withFetchWord 16 0x6A02))
      (fun t => decide (t.getV 0xA = 0x02 ∧ t.pc = 0x0202)) = true := by decide

/-! ### Witnesses: for every statement with hypotheses, a state and operands that meet them, clause by clause -/

/-- The state in which the instruction of `w` is about to execute: placed, and `PC` advanced. -/
def executing (w : Word) (s : State) : State := (s.placeWord w).ready 0

/-- Does `exec` complete here? -/
def completes (i : Instr) (s : State) : Bool := nextAnd (exec i s) fun _ => true

theorem completes_iff {i : Instr} {s : State} (h : completes i s = true) : ∃ t, exec i s = .next t := by
  unfold completes nextAnd at h
  cases he : exec i s with
  | next t => exact ⟨t, rfl⟩
  | fault k => rw [he] at h; cases h
  | refused r => rw [he] at h; cases h

theorem witness_DecodeOfEncodeIsTheInstruction : (Instr.drw 0x0 0x1 15).WellFormed ∧ Instr.cls.WellFormed := by decide

theorem witness_EncodeOfDecodeIsTheWord : decodeWord 0xD01F = .ok (.drw 0x0 0x1 15) := by decide

theorem witness_DecodeSelectsTheMatchingRow :
    (Instr.skp 0).row ∈ opcodeTable ∧ (Instr.skp 0).row.matches 0xEF9E = true ∧
      ∀ r ∈ opcodeTable, r.matches 0xEF9F = false := by decide

theorem witness_OpcodeRowsAreDisjoint : Instr.ret.row.matches 0x00EE = true := by decide

theorem witness_StepRunsTheDecodedInstruction (s : State) (h : s = (State.reset.withPc 0x0FFE).placeWord 0xFF65) :
    s.faultKind = none ∧ s.wait = false ∧ s.pc.toNat + 1 < s.params.memSize ∧
      decode [s.peek s.pc.toNat, s.peek (s.pc.toNat + 1)] = .ok (.loadRegs 0xF, []) := by subst h; decide

theorem witness_SixteenBitReadIsBigEndianAndChecked :
    State.reset.params.memSize ≤ 4095 + 1 ∧ 4094 + 1 < State.reset.params.memSize := by decide

/-- For `n` bytes from `a`: the last range inside memory and the first one that leaves it, and an empty range outside. -/
theorem witness_ByteAccessTouchesOneByteOrFaults :
    0 < 3 ∧ State.reset.params.memSize < 4094 + 3 ∧ 4093 + 3 ≤ State.reset.params.memSize ∧
    (0 = 0 ∨ 65535 + 0 ≤ State.reset.params.memSize) ∧
    0 < [(1 : Byte), 2].length ∧ State.reset.params.memSize < 4095 + [(1 : Byte), 2].length ∧
    4094 + [(1 : Byte), 2].length ≤ State.reset.params.memSize ∧ ([] : List Byte).length = 0 ∧
    State.reset.params.memSize ≤ 4096 ∧ 4095 < State.reset.params.memSize := by decide

theorem witness_StepChecksFetchThenDecodeThenExecution :
    (State.reset.withPc 0x0FFF).faultKind = none ∧ (State.reset.withPc 0x0FFF).wait = false ∧
    (State.reset.withPc 0x0FFF).params.memSize ≤ (State.reset.withPc 0x0FFF).pc.toNat + 1 ∧
    (State.reset.placeWord 0x00EF).fetch = .ok 0x00EF ∧ decodeWord 0x00EF = .error .invalidOpcode ∧
    (State.reset.placeWord 0x00EE).fetch = .ok 0x00EE ∧ decodeWord 0x00EE = .ok .ret ∧
    execFault .ret (State.reset.placeWord 0x00EE) = some .stackUnderflow := by decide

theorem witness_InstructionsFaultExactlyWhenStated :
    execFault (.call 0x200) (atDepth 16 0) = some .stackOverflow ∧ execFault (.call 0x200) (atDepth 15 0) = none ∧
    execFault (.call 0x200) (atDepth 0xFF 0) = some .stackOverflow ∧ execFault .ret (atDepth 0xFF 0) = none ∧
    execFault .ret (atDepth 0 0) = some .stackUnderflow ∧ execFault .ret (atDepth 1 0) = none ∧
    execFault (.drw 0 0 2) (State.reset.withI 0x0FFF) = some .addressFault ∧
    execFault (.drw 0 0 1) (State.reset.withI 0x0FFF) = none ∧
    execFault (.drw 0 0 0) (State.reset.withI 0xFFFF) = none ∧
    execFault (.ldB 0) (State.reset.withI 0x0FFE) = some .addressFault ∧
    execFault (.ldB 0) (State.reset.withI 0x0FFD) = none ∧
    execFault (.storeRegs 1) (State.reset.withI 0x0FFF) = some .addressFault ∧
    execFault (.storeRegs 0) (State.reset.withI 0x0FFF) = none ∧
    execFault (.loadRegs 15) (State.reset.withI 0x0FF1) = some .addressFault ∧
    execFault (.loadRegs 15) (State.reset.withI 0x0FF0) = none := by decide

theorem witness_RomTooLargeIsRaisedByLoadAlone (s : State)
    (h : s = State.resetWith ⟨0x202, false, true, 0, 5, defaultFont⟩) :
    s.faultKind = none ∧ s.params.memSize < 0x200 + [(1 : Byte), 2, 3].length ∧
      ¬ s.params.memSize < 0x200 + [(1 : Byte), 2].length := by subst h; decide

theorem witness_CallPushesTheFollowingAddress : (atDepth 16 0).sp.toNat = 16 ∧ (atDepth 15 0).sp.toNat < 16 := by decide

theorem witness_ReturnPopsIntoPc : (atDepth 0 0).sp.toNat = 0 ∧ 0 < (atDepth 1 0).sp.toNat ∧
    (atDepth 16 0).sp.toNat ≤ 16 ∧ 0 < (atDepth 16 0).sp.toNat ∧ 0 < (atDepth 0xFF 0).sp.toNat := by decide

theorem witness_CallThenReturnComesBack : (atDepth 15 0).sp.toNat < 16 := by decide

theorem witness_AddSetsCarry : (0xE : Reg) ≠ 0xF := by decide

theorem witness_SubtractionsSetNoBorrow : (0x0 : Reg) ≠ 0xF := by decide

theorem witness_ShiftsSetTheBitShiftedOut (s t : State) (h : s = preset [(0x1, 0x81), (0x2, 0x33)])
    (k : t = ((State.resetWith vyParams).setV 0x1 0x81).setV 0x2 0x33) :
    (0x81 : Byte) = (if s.params.shiftSourceVy = true then s.getV 0x2 else s.getV 0x1) ∧
      (0x33 : Byte) = (if t.params.shiftSourceVy = true then t.getV 0x2 else t.getV 0x1) ∧ (0x1 : Reg) ≠ 0xF := by
  subst h k; decide

theorem witness_RegistersChangeOnlyWhenNamedOrFlag :
    (∃ t, exec (.addReg 0x1 0x2) State.reset = .next t) ∧ setsFlag (.addReg 0x1 0x2) = true ∧
    namesDest (.addReg 0x1 0x2) 0xE = false ∧ (0xE : Reg) ≠ 0xF ∧
    (∃ t, exec (.loadRegs 0x1) State.reset = .next t) ∧ namesDest (.loadRegs 0x1) 0x2 = false ∧
    setsFlag (.loadRegs 0x1) = false := by
  refine ⟨completes_iff ?_, ?_, ?_, ?_, completes_iff ?_, ?_, ?_⟩ <;> decide

theorem witness_WritesOfTheIndexRegister : State.reset.params.Legal ∧ vyParams.Legal := by decide

theorem witness_BcdStoresThreeDigits (s t : State) (h : s = State.reset.withI 0x0FFE) (k : t = State.reset.withI 0x0FFD) :
    s.params.memSize ≤ s.baseAddr + 2 ∧ t.baseAddr + 2 < t.params.memSize := by subst h k; decide

theorem witness_BulkStoreWritesTheRegisters (s t : State) (h : s = State.reset.withI 0x0FF1)
    (k : t = State.reset.withI 0x0FF0) :
    s.params.memSize ≤ s.baseAddr + (0xF : Reg).toNat ∧ t.baseAddr + (0xF : Reg).toNat < t.params.memSize ∧
      (0xF : Reg).toNat ≤ (0xF : Reg).toNat := by subst h k; decide

theorem witness_BulkLoadReadsTheRegisters (s t : State) (h : s = State.reset.withI 0x1000)
    (k : t = State.reset.withI 0x0FFF) :
    s.params.memSize ≤ s.baseAddr + (0x0 : Reg).toNat ∧ t.baseAddr + (0x0 : Reg).toNat < t.params.memSize ∧
      (0x0 : Reg).toNat ≤ (0x0 : Reg).toNat := by subst h k; decide

/-- The reset state with `PC` and `I` set. -/
def pcAndI (pc i : Word) : State := (State.reset.withPc pc).withI i

/-- A bulk store over both bytes of the next word, over the low one, over the high one, and over neither. -/
theorem witness_StoresAreSeenByTheNextFetch (s t u v : State) (h : s = pcAndI 0x0FFE 0x0FF0) (k : t = pcAndI 0x0200 0x0201)
    (l : u = pcAndI 0x0201 0x0200) (m : v = pcAndI 0x0200 0x0300) :
    (s.baseAddr + (0xF : Reg).toNat < s.params.memSize ∧ s.pc.toNat + 1 < s.params.memSize ∧
      s.pc.toNat = s.baseAddr + (0xE : Reg).toNat ∧ s.pc.toNat + 1 = s.baseAddr + (0xF : Reg).toNat) ∧
    (t.baseAddr + (0x0 : Reg).toNat < t.params.memSize ∧ t.pc.toNat + 1 < t.params.memSize ∧
      t.pc.toNat < t.baseAddr ∧ t.pc.toNat + 1 = t.baseAddr + (0x0 : Reg).toNat) ∧
    (u.baseAddr + (0x1 : Reg).toNat < u.params.memSize ∧ u.pc.toNat + 1 < u.params.memSize ∧
      u.pc.toNat = u.baseAddr + (0x1 : Reg).toNat ∧ u.baseAddr + (0x1 : Reg).toNat < u.pc.toNat + 1) ∧
    (v.baseAddr + (0x0 : Reg).toNat < v.params.memSize ∧ v.pc.toNat < v.baseAddr ∧ v.pc.toNat + 1 < v.baseAddr) := by
  subst h k l m; decide

/-- `LD B` with `PC` at each distance from `I` at which a byte of the next word is a digit, and with none. -/
theorem witness_StoresAreSeenByTheNextFetch_digits (s t u v w x : State) (h : s = pcAndI 0x0200 0x0200)
    (k : t = pcAndI 0x0201 0x0200) (l : u = pcAndI 0x0202 0x0200) (m : v = pcAndI 0x01FF 0x0200)
    (n : w = pcAndI 0x0200 0x0300) (o : x = pcAndI 0x0FFD 0x0FFD) :
    (s.baseAddr + 2 < s.params.memSize ∧ s.pc.toNat + 1 < s.params.memSize ∧
      s.pc.toNat = s.baseAddr ∧ s.pc.toNat + 1 = s.baseAddr + 1) ∧
    (t.pc.toNat = t.baseAddr + 1 ∧ t.pc.toNat + 1 = t.baseAddr + 2) ∧
    (u.pc.toNat = u.baseAddr + 2 ∧ u.baseAddr + 2 < u.pc.toNat + 1) ∧
    (v.pc.toNat < v.baseAddr ∧ v.pc.toNat + 1 = v.baseAddr) ∧
    (w.baseAddr + 2 < w.params.memSize ∧ w.pc.toNat < w.baseAddr ∧ w.pc.toNat + 1 < w.baseAddr) ∧
    (x.baseAddr + 2 < x.params.memSize ∧ x.pc.toNat + 1 < x.params.memSize) := by subst h k l m n o; decide

/-- One completing instruction of each kind that changes `I`, `PC`, `SP`, `STACK` or memory, and one that changes none. -/
theorem witness_IndexPcStackAndMemoryChangeOnlyInTheirInstructions :
    nextAnd (exec (.ldI 0x123) State.reset) (fun t => t.i != State.reset.i) = true ∧
    nextAnd (exec (.jp 0x123) State.reset) (fun t => t.pc != State.reset.pc) = true ∧
    nextAnd (exec (.call 0x123) State.reset) (fun t => t.sp != State.reset.sp && t.stack != State.reset.stack) = true ∧
    nextAnd (exec .ret (atDepth 1 0)) (fun t => t.sp != (atDepth 1 0).sp) = true ∧
    nextAnd (exec (.storeRegs 0) State.reset) (fun t => t.peek 0 != State.reset.peek 0) = true ∧
    completes .cls State.reset = true := by decide

theorem witness_OnlyTheStoredRangeChanges :
    (∃ t, exec (.ldB 0x0) (State.reset.withI 0x0300) = .next t) ∧
    (∀ x, Instr.ldB 0x0 = .ldB x → 0x303 < (State.reset.withI 0x0300).baseAddr ∨
      (State.reset.withI 0x0300).baseAddr + 3 ≤ 0x303) ∧
    (∀ x, Instr.ldB 0x0 = .storeRegs x → 0x303 < (State.reset.withI 0x0300).baseAddr ∨
      (State.reset.withI 0x0300).baseAddr + x.toNat + 1 ≤ 0x303) :=
  ⟨completes_iff (by decide), fun _ _ => by decide, fun _ h => by cases h⟩

theorem witness_CanonicalMemoriesThatReadAlikeAreEqual (m : Memory) (h : m = [(0x000, 0x11), (0xFFF, 0x22)]) :
    m.wf Params.default = true ∧ ∀ a, m.read Params.default a = m.read Params.default a := by
  subst h; exact ⟨by decide, fun _ => rfl⟩

theorem witness_RandomByteIsMasked : (State.reset.withRnd 0xA7).rnd = 0xA7 := by decide

theorem witness_OnlyRndReadsTheRandomInput :
    (∀ x nn, Instr.ret ≠ .rnd x nn) ∧ (∃ t, exec .ret (atDepth 1 0) = .next t) ∧
      exec .ret State.reset = .fault .stackUnderflow :=
  ⟨fun _ _ h => (by cases h), completes_iff (by decide), rfl⟩

theorem witness_OnlyTimerWritesChangeTimersInAStep :
    nextAnd (stepWith 0 ((preset [(0x3, 0x05)]).placeWord 0xF315)) (fun t => t.dt != 0) = true ∧
      nextAnd (stepWith 0 ((preset [(0x3, 0x05)]).placeWord 0xF318)) (fun t => t.st != 0) = true := by decide

theorem witness_KeyWaitSpansSteps (s t : State) (h : s = State.reset.withWait true 0x3)
    (k : t = pressed [0x3, 0x9, 0xC] (State.reset.withWait true 0x3)) :
    s.faultKind = none ∧ s.wait = true ∧ (∀ k : Nibble, s.key k = false) ∧
    t.faultKind = none ∧ t.wait = true ∧ t.key 0x3 = true ∧
      ∀ k : Nibble, k.toNat < (0x3 : Nibble).toNat → t.key k = false := by subst h k; decide

theorem witness_WaitingStepIsIdle :
    (State.reset.withWait true 0x3).faultKind = none ∧ (State.reset.withWait true 0x3).wait = true := by decide

theorem witness_WaitWithoutAKeyNeverAdvances (s : State) (h : s = State.reset.withWait true 0x3) :
    s.faultKind = none ∧ s.wait = true ∧ (∀ k : Nibble, s.key k = false) ∧
      ∀ e ∈ [Event.step 0, .tick, .step 7], e = .tick ∨ ∃ rnd, e = .step rnd := by
  subst h
  exact ⟨rfl, rfl, by decide, by simp⟩

theorem witness_CoreNeverWritesKeys :
    nextAnd (stepWith 0 (State.reset.placeWord 0x00E0)) (fun _ => true) = true ∧
      nextAnd (loadEvent [0x12] State.reset) (fun _ => true) = true := by decide

theorem witness_DrawInvertsTheCoveredPixels (s t : State) (h : s = State.reset.withI 0x0FFF) (k : t = State.reset.withI 0) :
    2 ≤ 15 ∧ 0 < 2 ∧ s.params.memSize ≤ s.baseAddr + 2 - 1 ∧ s.baseAddr + 1 - 1 < s.params.memSize ∧
    t.baseAddr + 15 - 1 < t.params.memSize ∧ spriteCovers (t.getV 0) (t.getV 0) (t.sprite 1) 0 3 ∧
    ¬ spriteCovers (t.getV 0) (t.getV 0) (t.sprite 0) 0 3 := by
  subst h k
  refine ⟨by decide, by decide, by decide, by decide, by decide, ⟨0, 3, 0xF0, by decide⟩, ?_⟩
  rintro ⟨r, c, b, hb, _⟩
  exact absurd hb (by simp [State.sprite])

/-- The last two clauses' pictures: a covered pixel that is set, and no covered pixel that is. -/
theorem witness_DrawInvertsTheCoveredPixels_pictures (s : State)
    (h : s = State.reset.withFb (Framebuffer.blank.flip 0 3)) :
    spriteCovers (s.getV 0) (s.getV 0) (s.sprite 1) 0 3 ∧ s.pixel 0 3 = true ∧
      (∀ py px, spriteCovers (s.getV 0) (s.getV 0) (s.sprite 0) py px → s.pixel py px = false) := by
  subst h
  refine ⟨⟨0, 3, 0xF0, by decide⟩, by decide, ?_⟩
  rintro py px ⟨r, c, b, hb, _⟩
  exact absurd hb (by simp [State.sprite])

theorem witness_DrawingTwiceRestoresThePicture (s : State) (h : s = State.reset) :
    5 ≤ 15 ∧ (0x0 : Reg) ≠ 0xF ∧ (0x1 : Reg) ≠ 0xF ∧ (∃ t, exec (.drw 0x0 0x1 5) s = .next t) ∧
    (∃ b ∈ s.sprite 5, b ≠ 0) ∧ ∀ py px, s.pixel py px = false := by
  subst h
  exact ⟨by decide, by decide, by decide, completes_iff (by decide), ⟨0xF0, by decide⟩, by decide⟩

theorem witness_OnlyDisplayInstructionsChangeThePicture :
    nextAnd (stepWith 0 ((State.reset.withFb (Framebuffer.blank.flip 3 7)).placeWord 0x00E0))
      (fun t => t.pixel 3 7 != (State.reset.withFb (Framebuffer.blank.flip 3 7)).pixel 3 7) = true ∧
    nextAnd (loadEvent [0x12] State.reset) (fun _ => true) = true := by decide

theorem witness_LoadCopiesTheImage (s : State) (h : s = State.resetWith ⟨0x202, false, true, 0, 5, defaultFont⟩) :
    s.faultKind = none ∧ s.params.memSize < 0x200 + [(1 : Byte), 2, 3].length ∧
      0x200 + [(1 : Byte), 2].length ≤ s.params.memSize := by subst h; decide

theorem witness_FirstFetchIsTheFirstLoadedWord (s : State)
    (h : s = State.resetWith ⟨0x202, false, true, 0, 5, defaultFont⟩) :
    0x202 ≤ s.params.memSize ∧ 0x200 + ([] : List Byte).length ≤ s.params.memSize ∧
      0x200 + [(0x12 : Byte), 0x00].length ≤ s.params.memSize ∧
      [(0x12 : Byte), 0x00] = 0x12 :: 0x00 :: [] := by subst h; decide

theorem witness_StepWithoutLoadIsInvalidOpcode :
    Params.default.Legal ∧ (Params.mk 0x202 true false 0x1B0 5 defaultFont).Legal := by decide

theorem witness_FaultStaysLatchedUntilReset (s : State)
    (h : s = State.resetWith ⟨0x202, false, true, 0, 5, defaultFont⟩) :
    State.reset.faultKind = none ∧
    (∃ rnd, Event.step 0 = .step rnd ∧ stepWith rnd State.reset = .fault .invalidOpcode) ∧
    s.faultKind = none ∧ (∃ b, Event.load [1, 2, 3] = .load b ∧ loadEvent b s = .fault .romTooLarge) ∧
      ∀ e ∈ [Event.step 1, .tick, .setKey 0x5 true, .load [0x12]], e ≠ .reset := by
  subst h
  exact ⟨rfl, ⟨0, rfl, rfl⟩, rfl, ⟨[1, 2, 3], rfl, rfl⟩, by decide⟩

theorem witness_EveryStepKeepsTheInvariant (s t : State) (h : s = State.reset.placeWord 0xF30A)
    (k : t = pressed [0x5] ((State.reset.placeWord 0xF30A).withWait true 0x3)) :
    s.Inv ∧ nextAnd (stepWith 0 s) (fun _ => true) = true ∧ nextAnd (step s) (fun _ => true) = true ∧
    t.Inv ∧ nextAnd (stepWith 0 t) (fun _ => true) = true := by subst h k; decide

/-- A session before the program starts and one in a pending wait, each with an event that has a move, and a run. -/
theorem witness_RunsUnderTheProtocolMeetTheInvariant (h k : Session) (a : h = Session.start Params.default)
    (b : k = ⟨(State.reset.placeWord 0xF30A).withWait true 0x3, false⟩) :
    (h.Inv ∧ (h.event (.load [0xF3, 0x0A])).isSome = true) ∧ (k.Inv ∧ (k.event (.step 0)).isSome = true) ∧
    (h.run [.load [0xF3, 0x0A], .step 0, .setKey 0x5 true, .step 0]).isSome = true := by
  subst a b
  refine ⟨⟨fun _ => by decide, by decide⟩, ⟨fun _ => by decide, by decide⟩, by decide⟩

theorem witness_LateLoadHasNoMove (h : Session) (k : h = Session.start Params.default) :
    (∀ e ∈ [Event.tick, .step 0], e ≠ .reset) ∧
    ((h.event (.load [0x12])).bind fun h1 => h1.run [.tick, .step 0]).isSome = true ∧
    ((h.event (.step 0)).bind fun h1 => h1.run [.tick, .step 0]).isSome = true := by
  subst k; decide

end Sys2Proof.Tests
end

/-!
The invariant of the machine under the host's protocol (10_state.md rules R14, R21; 20_memory.md rule R43): what an
instruction that completes keeps, said once, and from it what a step, an event and a run keep.
-/

namespace Sys2Proof.Machine

/-! ### What a completing instruction keeps -/

/-- From `s` to `t` the parameters, the fault latch and `WAIT` are unchanged, and the canonical memory and the bound on
`SP` are kept. -/
structure State.Keeps (s t : State) : Prop where
  params : t.params = s.params
  faultKind : t.faultKind = s.faultKind
  wait : t.wait = s.wait
  memOk : s.memOk = true → t.memOk = true
  spOk : s.spOk = true → t.spOk = true

/-- An operation that leaves the byte store, `SP`, `WAIT`, the fault latch and the parameters alone keeps them all. -/
theorem State.Keeps.of_same {s t : State} (hp : t.params = s.params) (hf : t.faultKind = s.faultKind)
    (hw : t.wait = s.wait) (hm : t.mem = s.mem) (hs : t.sp = s.sp) : s.Keeps t where
  params := hp
  faultKind := hf
  wait := hw
  memOk h := by unfold State.memOk at h ⊢; rwa [hm, hp]
  spOk h := by unfold State.spOk at h ⊢; rwa [hs]

theorem State.keeps_skipIf (s : State) (c : Bool) : s.Keeps (s.skipIf c) := by
  cases c <;> exact .of_same rfl rfl rfl rfl rfl

/-- Bytes written into a valid range keep the canonical memory. -/
theorem State.memOk_pokeBytes {s : State} {a : Nat} {bs : List Byte} (h : s.memOk = true)
    (ha : a + bs.length ≤ s.params.memSize) : (s.pokeBytes a bs).memOk = true :=
  Memory.wf_writeBytes h (.inr ha)

theorem State.keeps_pokeBytes {s : State} {a : Nat} {bs : List Byte} (ha : a + bs.length ≤ s.params.memSize) :
    s.Keeps (s.pokeBytes a bs) :=
  ⟨rfl, rfl, rfl, fun h => State.memOk_pokeBytes h ha, id⟩

/-- `SP` may change to any depth that is at most 16 when the old one is. -/
theorem State.keeps_withStack_withPc {s : State} {sp : Byte} (stack : Vector Word 16) (pc : Word)
    (h : s.sp.toNat ≤ 16 → sp.toNat ≤ 16) : s.Keeps ((s.withStack sp stack).withPc pc) :=
  ⟨rfl, rfl, rfl, id, fun hs => decide_eq_true (h (of_decide_eq_true hs))⟩

theorem execCall_keeps {nnn : Addr12} {s t : State} (h : execCall nnn s = .next t) : s.Keeps t := by
  rcases execCall_cases nnn s with ⟨_, e⟩ | ⟨hsp, e⟩ <;> cases e.symm.trans h
  exact State.keeps_withStack_withPc _ _ fun _ => by rw [toNat_add_one hsp]; omega

theorem execRet_keeps {s t : State} (h : execRet s = .next t) : s.Keeps t := by
  rcases execRet_cases s with ⟨_, e⟩ | ⟨hsp, e⟩ <;> cases e.symm.trans h
  exact State.keeps_withStack_withPc _ _ fun _ => by rw [toNat_sub_one hsp]; omega

theorem execDrw_keeps {x y : Reg} {n : Nat} {s t : State} (h : execDrw x y n s = .next t) : s.Keeps t := by
  rcases execDrw_cases x y n s with ⟨_, _, e⟩ | ⟨_, e⟩ <;> cases e.symm.trans h
  exact .of_same rfl rfl rfl rfl rfl

theorem execLdB_keeps {x : Reg} {s t : State} (h : execLdB x s = .next t) : s.Keeps t := by
  rcases execLdB_cases x s with ⟨_, e⟩ | ⟨hr, e⟩ <;> cases e.symm.trans h
  exact State.keeps_pokeBytes (by rw [bcdDigits_length]; omega)

theorem execStoreRegs_keeps {x : Reg} {s t : State} (h : execStoreRegs x s = .next t) : s.Keeps t := by
  rcases execStoreRegs_cases x s with ⟨_, e⟩ | ⟨hr, e⟩ <;> cases e.symm.trans h
  exact State.keeps_pokeBytes (by rw [State.regsTo_length]; omega)

theorem execLoadRegs_keeps {x : Reg} {s t : State} (h : execLoadRegs x s = .next t) : s.Keeps t := by
  rcases execLoadRegs_cases x s with ⟨_, e⟩ | ⟨_, e⟩ <;> cases e.symm.trans h
  exact .of_same rfl rfl rfl rfl rfl

/-- An instruction that completes keeps all of `State.Keeps`, or is `LD Vx, K`, which begins its wait (rule R113). -/
theorem exec_next_cases {i : Instr} {s t : State} (h : exec i s = .next t) :
    s.Keeps t ∨ ∃ x, i = .ldVxK x ∧ t = s.beginWait x := by
  cases i with
  | ldVxK x => exact .inr ⟨x, rfl, (Host.Outcome.next.inj h).symm⟩
  | call nnn => exact .inl (execCall_keeps h)
  | ret => exact .inl (execRet_keeps h)
  | drw x y n => exact .inl (execDrw_keeps h)
  | ldB x => exact .inl (execLdB_keeps h)
  | storeRegs x => exact .inl (execStoreRegs_keeps h)
  | loadRegs x => exact .inl (execLoadRegs_keeps h)
  | seByte | sneByte | seReg | sneReg | skp | sknp =>
    obtain rfl := Host.Outcome.next.inj h
    exact .inl (s.keeps_skipIf _)
  | _ =>
    obtain rfl := Host.Outcome.next.inj h
    exact .inl (.of_same rfl rfl rfl rfl rfl)

/-! ### What a step keeps -/

theorem State.waitOk_of_not_waiting {s : State} (h : s.wait = false) : s.waitOk = true := by
  simp [State.waitOk, h]

/-- The wait that an `LD Vx, K` begins addresses the word just fetched: it undoes the increment (rule R113). -/
theorem State.waitOk_beginWait {s : State} {op : Word} {x : Reg} (rnd : Byte) (hf : s.fetch = .ok op)
    (hd : decodeWord op = .ok (.ldVxK x)) : ((s.ready rnd).beginWait x).waitOk = true := by
  have hpc : ((s.ready rnd).beginWait x).pc = s.pc := BitVec.add_sub_cancel s.pc 2
  have hfetch : ((s.ready rnd).beginWait x).fetch = .ok op := by
    rw [← hf, State.fetch, hpc]; rfl
  have hx : ((s.ready rnd).beginWait x).waitX = x := rfl
  simp [State.waitOk, hfetch, hx, hd]

/-- A poll keeps the invariant: it changes no byte and no depth, and when it moves `PC` the wait is over. -/
theorem State.pollWait_keeps_inv {s : State} (h : s.Inv) : s.pollWait.Inv := by
  obtain ⟨hmem, hwait, hsp⟩ := h
  rcases s.pollWait_cases with ⟨_, e⟩ | ⟨k, _, e⟩ <;> rw [e]
  · exact ⟨hmem, hwait, hsp⟩
  · exact ⟨hmem, State.waitOk_of_not_waiting rfl, hsp⟩

theorem State.pollWait_params (s : State) : s.pollWait.params = s.params :=
  onlyChanges_pollWait s .params (by simp)

theorem State.pollWait_faultKind (s : State) : s.pollWait.faultKind = s.faultKind :=
  onlyChanges_pollWait s .faultKind (by simp)

/-- An instruction run by a step from a state that does not wait keeps the invariant. -/
theorem exec_ready_keeps_inv {s t : State} {op : Word} {i : Instr} {rnd : Byte} (h : s.Inv) (hw : s.wait = false)
    (hf : s.fetch = .ok op) (hd : decodeWord op = .ok i) (he : exec i (s.ready rnd) = .next t) : t.Inv := by
  obtain ⟨hmem, _, hsp⟩ := h
  rcases exec_next_cases he with hk | ⟨x, rfl, rfl⟩
  · exact ⟨hk.memOk hmem, State.waitOk_of_not_waiting (hk.wait.trans hw), hk.spOk hsp⟩
  · exact ⟨hmem, State.waitOk_beginWait rnd hf hd, hsp⟩

theorem exec_keeps_params {i : Instr} {s t : State} (h : exec i s = .next t) : t.params = s.params := by
  rcases exec_next_cases h with hk | ⟨x, _, rfl⟩
  · exact hk.params
  · rfl

theorem exec_keeps_faultKind {i : Instr} {s t : State} (h : exec i s = .next t) : t.faultKind = s.faultKind := by
  rcases exec_next_cases h with hk | ⟨x, _, rfl⟩
  · exact hk.faultKind
  · rfl

theorem stepWith_keeps_inv {rnd : Byte} {s t : State} (h : s.Inv) (hst : stepWith rnd s = .next t) : t.Inv := by
  rcases stepWith_next_cases hst with ⟨_, rfl⟩ | ⟨_, _, rfl⟩ | ⟨_, hw, op, i, hf, hd, he⟩
  · exact h
  · exact State.pollWait_keeps_inv h
  · exact exec_ready_keeps_inv h hw hf hd he

theorem stepWith_keeps_params {rnd : Byte} {s t : State} (hst : stepWith rnd s = .next t) : t.params = s.params := by
  rcases stepWith_next_cases hst with ⟨_, rfl⟩ | ⟨_, _, rfl⟩ | ⟨_, _, _, _, _, _, he⟩
  · rfl
  · exact s.pollWait_params
  · rw [exec_keeps_params he]; rfl

theorem stepWith_keeps_faultKind {rnd : Byte} {s t : State} (hst : stepWith rnd s = .next t) :
    t.faultKind = s.faultKind := by
  rcases stepWith_next_cases hst with ⟨_, rfl⟩ | ⟨_, _, rfl⟩ | ⟨_, _, _, _, _, _, he⟩
  · rfl
  · exact s.pollWait_faultKind
  · rw [exec_keeps_faultKind he]; rfl

/-! ### What a load keeps -/

/-- A load that completes did nothing to a faulted engine, or copied an image that fits (rules R42, R129). -/
theorem loadEvent_next_cases {bytes : List Byte} {s t : State} (h : loadEvent bytes s = .next t) :
    (s.faultKind.isSome = true ∧ t = s) ∨
    (0x200 + bytes.length ≤ s.params.memSize ∧ t = s.pokeBytes 0x200 bytes) := by
  cases hf : s.faultKind with
  | some k =>
    rw [loadEvent_faulted bytes (by rw [hf]; rfl)] at h
    exact .inl ⟨rfl, (Host.Outcome.next.inj h).symm⟩
  | none =>
    rw [loadEvent_live bytes hf] at h
    split_ifs at h with hr
    exact .inr ⟨hr, (Host.Outcome.next.inj h).symm⟩

theorem loadEvent_keeps {bytes : List Byte} {s t : State} (h : loadEvent bytes s = .next t) : s.Keeps t := by
  rcases loadEvent_next_cases h with ⟨_, rfl⟩ | ⟨hr, rfl⟩
  · exact .of_same rfl rfl rfl rfl rfl
  · exact State.keeps_pokeBytes hr

/-! ### What an event keeps -/

/-- Latching a fault keeps the parameters (notes/assumptions/4.md), so an event keeps them when its completion does. -/
theorem settle_params {s : State} {r : Result} (h : ∀ t, r = .next t → t.params = s.params) :
    (settle s r).params = s.params := by
  cases r with
  | next t => exact h t rfl
  | fault _ => rfl
  | refused _ => rfl

/-- What holds of the old state and of the state of a completion holds after the event, unless a fault is latched. -/
theorem settle_of_live {P : State → Prop} {s : State} {r : Result} (hlive : (settle s r).faultKind = none)
    (hn : ∀ t, r = .next t → t.faultKind = none → P t) (hs : s.faultKind = none → P s) : P (settle s r) := by
  cases r with
  | next t => exact hn t rfl hlive
  | fault _ => cases hlive
  | refused _ => exact hs hlive

theorem event_keeps_params (e : Event) (s : State) : (event e s).params = s.params := by
  cases e with
  | load bytes => exact settle_params fun t h => (loadEvent_keeps h).params
  | step rnd => exact settle_params fun t h => stepWith_keeps_params h
  | reset | tick | setKey => rfl

/-- The state after `Reset` meets the invariant under every setting of the parameters. -/
theorem State.resetWith_inv (p : Params) : (State.resetWith p).Inv :=
  ⟨Memory.wf_nil p, rfl, rfl⟩

theorem Session.start_inv (p : Params) : (Session.start p).Inv :=
  fun _ => ⟨State.resetWith_inv p, fun _ => rfl⟩

/-! ### The host's protocol -/

/-- Once the program has started, the session asks of an engine that is not faulted only `State.Inv`. -/
theorem Session.inv_of_closed {s : State} (h : s.faultKind = none → s.Inv) : Session.Inv ⟨s, false⟩ :=
  fun hf => ⟨h hf, by simp⟩

/-- A load under the protocol comes before the program starts, when no wait is pending whose word it could change. -/
theorem Session.load_keeps_inv {h : Session} (bytes : List Byte) (hi : h.Inv) (ho : h.loadOpen = true) :
    Session.Inv ⟨Machine.event (.load bytes) h.engine, false⟩ := by
  refine Session.inv_of_closed fun hlive => settle_of_live hlive (fun t ht hf => ?_) (fun hf => (hi hf).1)
  have hk := loadEvent_keeps ht
  obtain ⟨⟨hmem, _, hsp⟩, hw⟩ := hi (hk.faultKind ▸ hf)
  exact ⟨hk.memOk hmem, State.waitOk_of_not_waiting (hk.wait.trans (hw ho)), hk.spOk hsp⟩

theorem Session.step_keeps_inv {h : Session} (rnd : Byte) (hi : h.Inv) :
    Session.Inv ⟨Machine.event (.step rnd) h.engine, false⟩ :=
  Session.inv_of_closed fun hlive => settle_of_live hlive
    (fun _ ht hf => stepWith_keeps_inv (hi (stepWith_keeps_faultKind ht ▸ hf)).1 ht) (fun hf => (hi hf).1)

theorem Session.event_keeps_inv {h h2 : Session} {e : Event} (hi : h.Inv) (he : h.event e = some h2) : h2.Inv := by
  cases e with
  | reset =>
    obtain rfl := Option.some.inj he
    exact Session.start_inv h.engine.params
  | load bytes =>
    unfold Session.event at he
    split_ifs at he with ho
    obtain rfl := Option.some.inj he
    exact Session.load_keeps_inv bytes hi ho
  | step rnd =>
    obtain rfl := Option.some.inj he
    exact Session.step_keeps_inv rnd hi
  | tick =>
    obtain rfl := Option.some.inj he
    exact hi
  | setKey k v =>
    obtain rfl := Option.some.inj he
    exact hi

/-- A move under the protocol is the event's effect on the engine (rule R2). -/
theorem Session.event_engine {h h2 : Session} {e : Event} (he : h.event e = some h2) :
    h2.engine = Machine.event e h.engine := by
  cases e with
  | load bytes =>
    unfold Session.event at he
    split_ifs at he
    obtain rfl := Option.some.inj he
    rfl
  | reset | step | tick | setKey =>
    obtain rfl := Option.some.inj he
    rfl

theorem Session.event_keeps_params {h h2 : Session} {e : Event} (he : h.event e = some h2) :
    h2.engine.params = h.engine.params := by
  rw [Session.event_engine he, Machine.event_keeps_params]

/-- A run under the protocol keeps the invariant and the parameters, by induction over its events. -/
theorem Session.run_keeps {h h2 : Session} {es : List Event} (hi : h.Inv) (hr : h.run es = some h2) :
    h2.Inv ∧ h2.engine.params = h.engine.params := by
  induction es generalizing h with
  | nil =>
    obtain rfl := Option.some.inj hr
    exact ⟨hi, rfl⟩
  | cons e es ih =>
    obtain ⟨h1, he, hr1⟩ := Option.bind_eq_some_iff.mp hr
    obtain ⟨hi2, hp2⟩ := ih (Session.event_keeps_inv hi he) hr1
    exact ⟨hi2, hp2.trans (Session.event_keeps_params he)⟩

/-- Settles O59: the step lemma over the five events, and the runs from reset by induction over their events. -/
theorem runsUnderTheProtocolMeetTheInvariant : Obligations.RunsUnderTheProtocolMeetTheInvariant := by
  unfold Obligations.RunsUnderTheProtocolMeetTheInvariant
  constructor
  · intro h h2 e hi he
    exact ⟨Session.event_keeps_inv hi he, Session.event_keeps_params he⟩
  · intro p es h hr
    exact Session.run_keeps (Session.start_inv p) hr

end Sys2Proof.Machine

/-!
What a step, an event and a reset do to each piece of state (10_state.md): the invariant over one step, the frame of
every instruction said once, the canonical form of the byte store, the timers over a run, and the reset values.
-/

namespace Sys2Proof.Machine

/-! ### The invariant over one step (rules R14, R21) -/

/-- Settles O58: a step with any random input keeps the invariant, and so does the machine's own `step`, which is one
in a state that differs in the count of draws alone. -/
theorem everyStepKeepsTheInvariant : Obligations.EveryStepKeepsTheInvariant := by
  unfold Obligations.EveryStepKeepsTheInvariant
  rintro s t hi (⟨rnd, h⟩ | h)
  · exact stepWith_keeps_inv hi h
  · have hdraw : s.nextDraw.Inv := hi
    exact stepWith_keeps_inv hdraw h

/-! ### The frame of every instruction -/

/-- The parts of the state an instruction may change when it completes in `s`; `PC` here is the advanced one. -/
def mayWrite (i : Instr) (s : State) (p : Part) : Prop :=
  match i with
  | .cls => ∃ y x, p = .pixel y x
  | .ret => p = .pc ∨ p = .sp
  | .call _ => p = .pc ∨ p = .sp ∨ ∃ j, j.val = s.sp.toNat ∧ p = .stackEntry j
  | .jp _ | .jpV0 _ | .seByte _ _ | .sneByte _ _ | .seReg _ _ | .sneReg _ _ | .skp _ | .sknp _ => p = .pc
  | .ldByte x _ | .addByte x _ | .ldReg x _ | .orReg x _ | .andReg x _ | .xorReg x _ | .rnd x _ | .ldVxDt x =>
    p = .reg x
  | .addReg x _ | .sub x _ | .shr x _ | .subn x _ | .shl x _ => p = .reg x ∨ p = .reg 0xF
  | .ldI _ | .addI _ | .ldF _ => p = .index
  | .drw _ _ _ => p = .reg 0xF ∨ ∃ y x, p = .pixel y x
  | .ldVxK _ => p = .wait ∨ p = .waitX ∨ p = .pc
  | .ldDtVx _ => p = .delay
  | .ldStVx _ => p = .sound
  | .ldB _ => ∃ a, s.baseAddr ≤ a ∧ a ≤ s.baseAddr + 2 ∧ p = .byte a
  | .storeRegs x => ∃ a, s.baseAddr ≤ a ∧ a ≤ s.baseAddr + x.toNat ∧ p = .byte a
  | .loadRegs x => ∃ k : Reg, k.toNat ≤ x.toNat ∧ p = .reg k

theorem onlyChanges_withStack (s : State) (sp : Byte) (stack : Vector Word 16) :
    OnlyChanges (fun p => p = .sp ∨ ∃ j : Fin 16, stack[j.val] ≠ s.stack[j.val] ∧ p = .stackEntry j) s
      (s.withStack sp stack) := by
  intro p hp
  cases p with
  | sp => exact absurd (.inl rfl) hp
  | stackEntry j =>
    by_contra hc
    exact hp (.inr ⟨j, hc, rfl⟩)
  | _ => rfl

theorem execCall_frame {nnn : Addr12} {s t : State} (h : execCall nnn s = .next t) :
    OnlyChanges (mayWrite (.call nnn) s) s t := by
  rcases execCall_cases nnn s with ⟨_, e⟩ | ⟨hsp, e⟩ <;> cases e.symm.trans h
  refine ((onlyChanges_withStack s _ _).mono ?_).trans ((onlyChanges_withPc _ _).mono fun p => .inl)
  rintro p (rfl | ⟨j, hj, rfl⟩)
  · exact .inr (.inl rfl)
  · refine .inr (.inr ⟨j, ?_, rfl⟩)
    by_contra hne
    exact hj (Vector.getElem_set_ne hsp j.isLt (Ne.symm hne))

theorem execRet_frame {s t : State} (h : execRet s = .next t) : OnlyChanges (mayWrite .ret s) s t := by
  rcases execRet_cases s with ⟨_, e⟩ | ⟨_, e⟩ <;> cases e.symm.trans h
  refine ((onlyChanges_withStack s _ _).mono ?_).trans ((onlyChanges_withPc _ _).mono fun p => .inl)
  rintro p (rfl | ⟨j, hj, rfl⟩)
  · exact .inr rfl
  · exact absurd rfl hj

theorem execDrw_frame {x y : Reg} {n : Nat} {s t : State} (h : execDrw x y n s = .next t) :
    OnlyChanges (mayWrite (.drw x y n) s) s t := by
  rcases execDrw_cases x y n s with ⟨_, _, e⟩ | ⟨_, e⟩ <;> cases e.symm.trans h
  exact ((onlyChanges_withFb s _).mono fun _ => .inr).trans ((onlyChanges_setV _ 0xF _).mono fun _ => .inl)

theorem execLdB_frame {x : Reg} {s t : State} (h : execLdB x s = .next t) :
    OnlyChanges (mayWrite (.ldB x) s) s t := by
  rcases execLdB_cases x s with ⟨_, e⟩ | ⟨_, e⟩ <;> cases e.symm.trans h
  refine (onlyChanges_pokeBytes s _ _).mono ?_
  rintro p ⟨a, hlo, hhi, rfl⟩
  rw [bcdDigits_length] at hhi
  exact ⟨a, hlo, by omega, rfl⟩

theorem execStoreRegs_frame {x : Reg} {s t : State} (h : execStoreRegs x s = .next t) :
    OnlyChanges (mayWrite (.storeRegs x) s) s t := by
  rcases execStoreRegs_cases x s with ⟨_, e⟩ | ⟨_, e⟩ <;> cases e.symm.trans h
  refine (onlyChanges_pokeBytes s _ _).mono ?_
  rintro p ⟨a, hlo, hhi, rfl⟩
  rw [State.regsTo_length] at hhi
  exact ⟨a, hlo, by omega, rfl⟩

theorem execLoadRegs_frame {x : Reg} {s t : State} (h : execLoadRegs x s = .next t) :
    OnlyChanges (mayWrite (.loadRegs x) s) s t := by
  rcases execLoadRegs_cases x s with ⟨_, e⟩ | ⟨_, e⟩ <;> cases e.symm.trans h
  intro p hp
  cases p with
  | reg r =>
    have hr : x.toNat < r.toNat := by
      by_contra hle
      exact hp ⟨r, by omega, rfl⟩
    show (setRegsFrom s.v 0 _)[r.toNat]'(Reg.toNat_lt r) = s.getV r
    rw [getElem_setRegsFrom, if_pos (Nat.zero_le _), List.getElem?_eq_none (by rw [Memory.readBytes_length]; omega)]
    rfl
  | _ => rfl

theorem onlyChanges_beginWait (s : State) (x : Reg) :
    OnlyChanges (fun p => p = .wait ∨ p = .waitX ∨ p = .pc) s (s.beginWait x) :=
  ((onlyChanges_withWait s true x).mono fun _ h => h.imp_right .inl).trans
    ((onlyChanges_withPc _ _).mono fun _ h => .inr (.inr h))

/-- An instruction that completes changes no part of the state but those it writes. -/
theorem exec_frame {i : Instr} {s t : State} (h : exec i s = .next t) : OnlyChanges (mayWrite i s) s t := by
  cases i with
  | call nnn => exact execCall_frame h
  | ret => exact execRet_frame h
  | drw x y n => exact execDrw_frame h
  | ldB x => exact execLdB_frame h
  | storeRegs x => exact execStoreRegs_frame h
  | loadRegs x => exact execLoadRegs_frame h
  | cls => cases h; exact onlyChanges_withFb s _
  | jp | jpV0 => cases h; exact onlyChanges_withPc s _
  | seByte | sneByte | seReg | sneReg | skp | sknp => cases h; exact onlyChanges_skipIf s _
  | ldByte | addByte | ldReg | orReg | andReg | xorReg | rnd | ldVxDt => cases h; exact onlyChanges_setV s _ _
  | addReg | sub | shr | subn | shl => cases h; exact onlyChanges_setVFlag s _ _
  | ldI | addI | ldF => cases h; exact onlyChanges_withI s _
  | ldVxK x => cases h; exact onlyChanges_beginWait s x
  | ldDtVx x => cases h; exact onlyChanges_withDt s _
  | ldStVx x => cases h; exact onlyChanges_withSt s _

/-- A part that reads differently after an instruction is one the instruction writes. -/
theorem mayWrite_of_not_same {i : Instr} {s t : State} {p : Part} (h : exec i s = .next t) (hp : ¬ p.same s t) :
    mayWrite i s p :=
  not_not.mp fun hw => hp (exec_frame h p hw)

/-! ### Registers (rule R11) -/

/-- The registers an instruction writes are its named destinations, and `VF` when it defines a flag. -/
theorem mayWrite_reg_iff (i : Instr) (s : State) (r : Reg) :
    mayWrite i s (.reg r) ↔ namesDest i r = true ∨ (setsFlag i = true ∧ r = 0xF) := by
  cases i <;> simp [mayWrite, namesDest, setsFlag]

theorem flagByte_eq_zero_or_one (f : Bool) : flagByte f = 0 ∨ flagByte f = 1 := by
  cases f
  · exact .inl rfl
  · exact .inr rfl

/-- An instruction with a flag result leaves `VF` holding a flag: it is written last (rule R80). -/
theorem exec_flag {i : Instr} {s t : State} (h : exec i s = .next t) (hf : setsFlag i = true) :
    ∃ f, t.getV 0xF = flagByte f := by
  cases i with
  | addReg | sub | shr | subn | shl =>
    cases h
    exact ⟨_, State.getV_setV_same _ _ _⟩
  | drw x y n =>
    rcases execDrw_cases x y n s with ⟨_, _, e⟩ | ⟨_, e⟩ <;> cases e.symm.trans h
    exact ⟨_, State.getV_setV_same _ _ _⟩
  | _ => cases hf

/-- Settles O26: the flag is a flag byte, and the frame of the instruction leaves every other register. -/
theorem registersChangeOnlyWhenNamedOrFlag : Obligations.RegistersChangeOnlyWhenNamedOrFlag := by
  unfold Obligations.RegistersChangeOnlyWhenNamedOrFlag
  intro i s t h
  refine ⟨fun hf => ?_, fun r hd hr => exec_frame h (.reg r) ?_⟩
  · obtain ⟨f, e⟩ := exec_flag h hf
    exact e ▸ flagByte_eq_zero_or_one f
  · rw [mayWrite_reg_iff]
    rintro (hn | ⟨hf, rfl⟩)
    · simp [hd] at hn
    · simp [hf] at hr

/-! ### Index, program counter, stack and memory (rules R12 to R15, R18) -/

theorem mayWrite_index_iff (i : Instr) (s : State) :
    mayWrite i s .index ↔ (∃ nnn, i = .ldI nnn) ∨ (∃ x, i = .addI x) ∨ ∃ x, i = .ldF x := by
  cases i <;> simp [mayWrite]

theorem mayWrite_pc_iff (i : Instr) (s : State) :
    mayWrite i s .pc ↔ (∃ nnn, i = .jp nnn) ∨ (∃ nnn, i = .jpV0 nnn) ∨ (∃ nnn, i = .call nnn) ∨ i = .ret ∨
      (∃ x nn, i = .seByte x nn) ∨ (∃ x nn, i = .sneByte x nn) ∨ (∃ x y, i = .seReg x y) ∨ (∃ x y, i = .sneReg x y) ∨
      (∃ x, i = .skp x) ∨ (∃ x, i = .sknp x) ∨ ∃ x, i = .ldVxK x := by
  cases i <;> simp [mayWrite]

theorem mayWrite_sp_iff (i : Instr) (s : State) : mayWrite i s .sp ↔ (∃ nnn, i = .call nnn) ∨ i = .ret := by
  cases i <;> simp [mayWrite]

theorem mayWrite_stackEntry_iff (i : Instr) (s : State) (j : Fin 16) :
    mayWrite i s (.stackEntry j) ↔ (∃ nnn, i = .call nnn) ∧ j.val = s.sp.toNat := by
  cases i <;> simp [mayWrite]

theorem mayWrite_byte {i : Instr} {s : State} {a : Nat} :
    mayWrite i s (.byte a) → (∃ x, i = .ldB x) ∨ ∃ x, i = .storeRegs x := by
  cases i <;> simp [mayWrite]

/-- A call that completes raises the depth by one. -/
theorem execCall_sp {nnn : Addr12} {s t : State} (h : execCall nnn s = .next t) : t.sp.toNat = s.sp.toNat + 1 := by
  rcases execCall_cases nnn s with ⟨_, e⟩ | ⟨hsp, e⟩ <;> cases e.symm.trans h
  exact toNat_add_one hsp

/-- A return that completes lowers the depth by one. -/
theorem execRet_sp {s t : State} (h : execRet s = .next t) : t.sp.toNat + 1 = s.sp.toNat := by
  rcases execRet_cases s with ⟨_, e⟩ | ⟨hsp, e⟩ <;> cases e.symm.trans h
  have hsub := toNat_sub_one hsp
  simp only [State.withPc_sp, State.withStack_sp]
  omega

/-- The depth changes up by one in `CALL` and down by one in `RET` alone. -/
theorem exec_sp {i : Instr} {s t : State} (h : exec i s = .next t) (hne : t.sp ≠ s.sp) :
    ((∃ nnn, i = .call nnn) ∧ t.sp.toNat = s.sp.toNat + 1) ∨ (i = .ret ∧ t.sp.toNat + 1 = s.sp.toNat) := by
  rcases (mayWrite_sp_iff i s).mp (mayWrite_of_not_same (p := .sp) h hne) with ⟨nnn, rfl⟩ | rfl
  · exact .inl ⟨⟨nnn, rfl⟩, execCall_sp h⟩
  · exact .inr ⟨rfl, execRet_sp h⟩

/-- Stacks that differ differ in an entry. -/
theorem State.exists_stackEntry_not_same {s t : State} (h : t.stack ≠ s.stack) :
    ∃ j, ¬ Part.same s t (.stackEntry j) := by
  by_contra hc
  push Not at hc
  exact h (Vector.ext fun j hj => hc ⟨j, hj⟩)

/-- Settles O32: each part that changes is one the instruction writes, and `SP` moves by one. -/
theorem indexPcStackAndMemoryChangeOnlyInTheirInstructions :
    Obligations.IndexPcStackAndMemoryChangeOnlyInTheirInstructions := by
  unfold Obligations.IndexPcStackAndMemoryChangeOnlyInTheirInstructions
  intro i s t h
  refine ⟨fun hi => ?_, fun hpc => ?_, exec_sp h, fun hst => ?_, fun ⟨a, ha⟩ => ?_⟩
  · exact (mayWrite_index_iff i s).mp (mayWrite_of_not_same (p := .index) h hi)
  · exact (mayWrite_pc_iff i s).mp (mayWrite_of_not_same (p := .pc) h hpc)
  · obtain ⟨j, hj⟩ := State.exists_stackEntry_not_same hst
    exact ((mayWrite_stackEntry_iff i s j).mp (mayWrite_of_not_same h hj)).1
  · exact mayWrite_byte (mayWrite_of_not_same (p := .byte a) h ha)

/-! ### The canonical form of the byte store (notes/assumptions/9.md) -/

theorem Memory.mem_of_lookup {m : Memory} {a : Nat} {b : Byte} (h : m.lookup a = some b) : (a, b) ∈ m := by
  induction m with
  | nil => cases h
  | cons c m ih =>
    obtain ⟨k, c⟩ := c
    unfold Memory.lookup at h
    split_ifs at h with hk
    · obtain rfl := Option.some.inj h
      exact hk ▸ List.mem_cons_self
    · exact List.mem_cons_of_mem _ (ih h)

/-- In a minimal memory the bytes read tell which addresses are listed, and what as. -/
theorem Memory.lookup_eq_of_read {p : Params} {m : Memory} (hm : ∀ c ∈ m, c.2 ≠ p.resetByte c.1) (a : Nat) :
    m.lookup a = if m.read p a = p.resetByte a then none else some (m.read p a) := by
  unfold Memory.read
  cases h : m.lookup a with
  | none => simp
  | some b =>
    have hb : b ≠ p.resetByte a := hm (a, b) (Memory.mem_of_lookup h)
    simp [hb]

theorem Memory.rising_cons_iff (m : Memory) (lo k : Nat) (c : Byte) :
    Memory.rising lo ((k, c) :: m) = true ↔ lo ≤ k ∧ m.rising (k + 1) = true := by
  simp [Memory.rising]

/-- A rising memory lists no address below its bound. -/
theorem Memory.le_of_lookup {m : Memory} {lo a : Nat} {b : Byte} (h : m.rising lo = true)
    (ha : m.lookup a = some b) : lo ≤ a := by
  induction m generalizing lo with
  | nil => cases ha
  | cons c m ih =>
    obtain ⟨k, c⟩ := c
    obtain ⟨hk, hr⟩ := (Memory.rising_cons_iff m lo k c).mp h
    unfold Memory.lookup at ha
    split_ifs at ha with hka
    · omega
    · have := ih hr ha
      omega

theorem Memory.lookup_eq_none_of_rising {m : Memory} {lo a : Nat} (h : m.rising lo = true) (ha : a < lo) :
    m.lookup a = none :=
  Option.eq_none_iff_forall_ne_some.mpr fun _ hb => absurd (Memory.le_of_lookup h hb) (by omega)

/-- Rising memories that list the same bytes at the same addresses are equal: the least listed address of the one is
that of the other. -/
theorem Memory.eq_of_rising_of_lookup {m m' : Memory} {lo lo' : Nat} (h : m.rising lo = true)
    (h' : m'.rising lo' = true) (he : ∀ a, m.lookup a = m'.lookup a) : m = m' := by
  induction m generalizing m' lo lo' with
  | nil =>
    cases m' with
    | nil => rfl
    | cons c' m' => simpa [Memory.lookup] using he c'.1
  | cons c m ih =>
    cases m' with
    | nil => simpa [Memory.lookup] using he c.1
    | cons c' m' =>
      obtain ⟨k, c⟩ := c
      obtain ⟨k', c'⟩ := c'
      obtain ⟨_, hr⟩ := (Memory.rising_cons_iff m lo k c).mp h
      obtain ⟨_, hr'⟩ := (Memory.rising_cons_iff m' lo' k' c').mp h'
      have hle : k ≤ k' := Memory.le_of_lookup ((Memory.rising_cons_iff m k k c).mpr ⟨le_rfl, hr⟩)
        ((he k').trans (if_pos rfl))
      have hge : k' ≤ k := Memory.le_of_lookup ((Memory.rising_cons_iff m' k' k' c').mpr ⟨le_rfl, hr'⟩)
        ((he k).symm.trans (if_pos rfl))
      obtain rfl := le_antisymm hle hge
      have hc : c = c' := by simpa [Memory.lookup] using he k
      have htail : m = m' := ih hr hr' fun a => by
        by_cases ha : a = k
        · rw [ha, Memory.lookup_eq_none_of_rising hr k.lt_succ_self, Memory.lookup_eq_none_of_rising hr' k.lt_succ_self]
        · simpa [Memory.lookup, Ne.symm ha] using he a
      rw [hc, htail]

/-- Settles O34: the bytes read give the listed cells, and rising lists of the same cells are equal. -/
theorem canonicalMemoriesThatReadAlikeAreEqual : Obligations.CanonicalMemoriesThatReadAlikeAreEqual := by
  unfold Obligations.CanonicalMemoriesThatReadAlikeAreEqual
  intro p m m' h h' he
  obtain ⟨hr, hm, _⟩ := (Memory.wf_iff p m).mp h
  obtain ⟨hr', hm', _⟩ := (Memory.wf_iff p m').mp h'
  refine Memory.eq_of_rising_of_lookup hr hr' fun a => ?_
  rw [Memory.lookup_eq_of_read hm, Memory.lookup_eq_of_read hm', he a]

/-! ### Timers over a run (rules R16, R17, R134) -/

theorem event_tick_dt_toNat (s : State) : (event .tick s).dt.toNat = s.dt.toNat - 1 := countDown_toNat s.dt

theorem event_tick_st_toNat (s : State) : (event .tick s).st.toNat = s.st.toNat - 1 := countDown_toNat s.st

/-- Settles O40, by induction on the number of ticks. -/
theorem ticksReachZeroAndStay : Obligations.TicksReachZeroAndStay := by
  unfold Obligations.TicksReachZeroAndStay
  intro n
  induction n with
  | zero => exact fun s => ⟨rfl, rfl⟩
  | succ n ih =>
    intro s
    obtain ⟨hdt, hst⟩ := ih (event .tick s)
    rw [event_tick_dt_toNat] at hdt
    rw [event_tick_st_toNat] at hst
    rw [List.replicate_succ, runEvents]
    omega

/-! ### Keys (rule R20) -/

theorem not_mayWrite_key (i : Instr) (s : State) (k : Nibble) : ¬ mayWrite i s (.key k) := by
  cases i <;> simp [mayWrite]

/-- Key latches whose every key reads the same are equal. -/
theorem State.keys_ext {s t : State} (h : ∀ k, t.key k = s.key k) : t.keys = s.keys := by
  apply Vector.ext
  intro n hn
  have hk := h (BitVec.ofNat 4 n)
  simpa [State.key, Nat.mod_eq_of_lt hn] using hk

theorem stepWith_keeps_keys {rnd : Byte} {s t : State} (h : stepWith rnd s = .next t) : t.keys = s.keys := by
  refine State.keys_ext fun k => ?_
  rcases stepWith_next_cases h with ⟨_, rfl⟩ | ⟨_, _, rfl⟩ | ⟨_, _, _, i, _, _, he⟩
  · rfl
  · exact onlyChanges_pollWait s (.key k) (by simp)
  · exact exec_frame he (.key k) (not_mayWrite_key i _ k)

theorem loadEvent_keeps_keys {bytes : List Byte} {s t : State} (h : loadEvent bytes s = .next t) :
    t.keys = s.keys := by
  rcases loadEvent_next_cases h with ⟨_, rfl⟩ | ⟨_, rfl⟩ <;> rfl

/-- Settles O46: no instruction, no poll of a key wait and no load writes a key. -/
theorem coreNeverWritesKeys : Obligations.CoreNeverWritesKeys := by
  unfold Obligations.CoreNeverWritesKeys
  exact fun s t => ⟨fun _ => stepWith_keeps_keys, fun _ => loadEvent_keeps_keys⟩

/-! ### Reset (rules R24, R146) -/

/-- Inside the font region an address holds its font byte after reset (rule R37). -/
theorem Params.resetByte_of_mem_font {p : Params} {a : Nat}
    (h : p.fontEnable = true ∧ p.fontBase ≤ a ∧ a < p.fontBase + p.font.length) :
    p.font[a - p.fontBase]? = some (p.resetByte a) := by
  obtain ⟨he, hlo, hhi⟩ := h
  rw [Params.resetByte, if_pos (by simp [he, hlo]), List.getD_eq_getElem?_getD,
    List.getElem?_eq_getElem (by omega)]
  rfl

/-- Outside the font region an address holds 0 after reset (rule R24). -/
theorem Params.resetByte_of_not_mem_font {p : Params} {a : Nat}
    (h : ¬(p.fontEnable = true ∧ p.fontBase ≤ a ∧ a < p.fontBase + p.font.length)) : p.resetByte a = 0 := by
  unfold Params.resetByte
  split_ifs with hc
  · simp only [Bool.and_eq_true, decide_eq_true_eq] at hc
    obtain ⟨he, hlo⟩ := hc
    have hhi : p.font.length ≤ a - p.fontBase := by
      by_contra hlt
      exact h ⟨he, hlo, by omega⟩
    rw [List.getD_eq_getElem?_getD, List.getElem?_eq_none hhi]
    rfl
  · rfl

theorem event_reset_peek (s : State) (a : Nat) : (event .reset s).peek a = s.params.resetByte a := rfl

theorem event_reset_getV (s : State) (r : Reg) : (event .reset s).getV r = 0 := Vector.getElem_replicate _

theorem event_reset_stack (s : State) (j : Fin 16) : (event .reset s).stack[j.val] = 0 := Vector.getElem_replicate _

theorem event_reset_key (s : State) (k : Nibble) : (event .reset s).key k = false := Vector.getElem_replicate _

theorem event_reset_pixel (s : State) (y : Fin 32) (x : Fin 64) : (event .reset s).pixel y x = false :=
  Framebuffer.get_blank y x

/-- Settles O51: the reset state field by field; memory reads its reset bytes, which are the font's or 0. -/
theorem resetLeavesTheResetValues : Obligations.ResetLeavesTheResetValues := by
  unfold Obligations.ResetLeavesTheResetValues
  intro s
  refine ⟨_, rfl, event_reset_getV s, rfl, rfl, rfl, event_reset_stack s, rfl, rfl, fun a => ?_, event_reset_pixel s,
    event_reset_key s, rfl, rfl, rfl, rfl⟩
  rw [event_reset_peek]
  exact ⟨Params.resetByte_of_mem_font, Params.resetByte_of_not_mem_font⟩

/-- Settles O57: the reset state and the session that starts there meet the invariant, whatever the parameters. -/
theorem resetMeetsTheInvariant : Obligations.ResetMeetsTheInvariant := by
  unfold Obligations.ResetMeetsTheInvariant
  exact ⟨State.resetWith_inv Params.default, fun p => ⟨State.resetWith_inv p, Session.start_inv p⟩⟩

end Sys2Proof.Machine

/-!
Memory (20_memory.md): the checked accesses and the bytes they read or change, the fetch after a store, the range an
instruction stores into, the default font, and the one `Load` of the host's protocol.
-/

namespace Sys2Proof.Machine

/-! ### The two-byte read (rules R33, R41) -/

theorem State.memRead16_eq_ok {s : State} {a : Nat} (h : a + 1 < s.params.memSize) :
    s.memRead16 a = .ok (wordOfBytes (s.peek a) (s.peek (a + 1))) := if_pos h

theorem State.memRead16_eq_error {s : State} {a : Nat} (h : s.params.memSize ≤ a + 1) :
    s.memRead16 a = .error .addressFault := if_neg (by omega)

/-- Settles O8: the check is on the second byte, and the word of two bytes is big-endian. -/
theorem sixteenBitReadIsBigEndianAndChecked : Obligations.SixteenBitReadIsBigEndianAndChecked := by
  unfold Obligations.SixteenBitReadIsBigEndianAndChecked
  exact ⟨fun _ _ => State.memRead16_eq_error,
    fun _ _ h => ⟨_, State.memRead16_eq_ok h, wordOfBytes_toNat _ _⟩, fun _ => rfl⟩

/-! ### The accesses to a range of bytes (rules R32, R35, R45) -/

theorem State.loadBytes_eq_error {s : State} {a n : Nat} (hn : 0 < n) (h : s.params.memSize < a + n) :
    s.loadBytes a n = .error .addressFault := by
  rw [s.loadBytes_eq, if_neg (by omega)]

theorem State.loadBytes_eq_ok {s : State} {a n : Nat} (h : n = 0 ∨ a + n ≤ s.params.memSize) :
    s.loadBytes a n = .ok (s.mem.readBytes s.params a n) := by
  rw [s.loadBytes_eq, if_pos h]

theorem State.storeBytes_eq_error {s : State} {a : Nat} {bs : List Byte} (hn : 0 < bs.length)
    (h : s.params.memSize < a + bs.length) : s.storeBytes a bs = .error .addressFault := by
  rw [s.storeBytes_eq, if_neg (by omega)]

theorem State.storeBytes_eq_ok {s : State} {a : Nat} {bs : List Byte}
    (h : bs.length = 0 ∨ a + bs.length ≤ s.params.memSize) : s.storeBytes a bs = .ok (s.pokeBytes a bs) := by
  rw [s.storeBytes_eq, if_pos h]

/-- The bytes written are the bytes read back. -/
theorem State.getElem?_eq_peek_pokeBytes (s : State) (a : Nat) {bs : List Byte} {k : Nat} (h : k < bs.length) :
    bs[k]? = some ((s.pokeBytes a bs).peek (a + k)) := by
  rw [s.peek_pokeBytes_inside a h, List.getElem?_eq_getElem h]

/-- One byte written changes that byte alone. -/
theorem onlyChanges_pokeByte (s : State) (a : Nat) (b : Byte) : OnlyChanges (· = .byte a) s (s.pokeBytes a [b]) := by
  refine (onlyChanges_pokeBytes s a [b]).mono ?_
  rintro p ⟨a', hlo, hhi, rfl⟩
  rw [List.length_singleton] at hhi
  obtain rfl : a' = a := by omega
  rfl

@[simp] theorem State.peek_pokeByte_same (s : State) (a : Nat) (b : Byte) : (s.pokeBytes a [b]).peek a = b :=
  s.peek_pokeBytes_inside a (bs := [b]) (k := 0) Nat.one_pos

theorem State.memRead8_eq_ok {s : State} {a : Nat} (h : a < s.params.memSize) : s.memRead8 a = .ok (s.peek a) :=
  if_pos h

theorem State.memRead8_eq_error {s : State} {a : Nat} (h : s.params.memSize ≤ a) :
    s.memRead8 a = .error .addressFault := if_neg (by omega)

theorem State.memWrite8_eq_ok {s : State} {a : Nat} (b : Byte) (h : a < s.params.memSize) :
    s.memWrite8 a b = .ok (s.pokeBytes a [b]) := if_pos h

theorem State.memWrite8_eq_error {s : State} {a : Nat} (b : Byte) (h : s.params.memSize ≤ a) :
    s.memWrite8 a b = .error .addressFault := if_neg (by omega)

/-- Settles O9: the whole range is checked first; inside it a load reads and a store writes the bytes one by one. -/
theorem byteAccessTouchesOneByteOrFaults : Obligations.ByteAccessTouchesOneByteOrFaults := by
  unfold Obligations.ByteAccessTouchesOneByteOrFaults
  refine ⟨fun s a n => ⟨State.loadBytes_eq_error, fun h => ?_⟩, fun s a bs => ⟨State.storeBytes_eq_error, fun h => ?_⟩,
    fun s a b => ⟨fun h => ⟨State.memRead8_eq_error h, State.memWrite8_eq_error b h⟩, fun h => ?_⟩⟩
  · refine ⟨_, State.loadBytes_eq_ok h, Memory.readBytes_length .., fun k hk => ?_⟩
    rw [s.readBytes_getElem?, if_pos hk]
  · exact ⟨_, State.storeBytes_eq_ok h, fun _ => s.getElem?_eq_peek_pokeBytes a, onlyChanges_pokeBytes s a bs⟩
  · exact ⟨State.memRead8_eq_ok h, _, State.memWrite8_eq_ok b h, s.peek_pokeByte_same a b, onlyChanges_pokeByte s a b⟩

/-! ### What the storing instructions leave in memory (rules R98, R99) -/

theorem exec_storeRegs_eq_next {x : Reg} {s : State} (h : s.baseAddr + x.toNat < s.params.memSize) :
    exec (.storeRegs x) s = .next (s.pokeBytes s.baseAddr (s.regsTo x)) := by
  rcases execStoreRegs_cases x s with ⟨hf, _⟩ | ⟨_, e⟩
  · omega
  · exact e

theorem exec_ldB_eq_next {x : Reg} {s : State} (h : s.baseAddr + 2 < s.params.memSize) :
    exec (.ldB x) s = .next (s.pokeBytes s.baseAddr (bcdDigits (s.getV x))) := by
  rcases execLdB_cases x s with ⟨hf, _⟩ | ⟨_, e⟩
  · omega
  · exact e

/-- After a bulk store from `b` the byte `k` places above it is `V[k]`. -/
theorem State.peek_pokeRegs {s : State} {x k : Reg} {a b : Nat} (hk : k.toNat ≤ x.toNat) (ha : a = b + k.toNat) :
    (s.pokeBytes b (s.regsTo x)).peek a = s.getV k := by
  have hlen : k.toNat < (s.regsTo x).length := by rw [s.regsTo_length]; omega
  rw [ha, s.peek_pokeBytes_inside b hlen, s.regsTo_getElem]

theorem State.peek_pokeRegs_outside {s : State} {x : Reg} {a b : Nat} (h : a < b ∨ b + x.toNat < a) :
    (s.pokeBytes b (s.regsTo x)).peek a = s.peek a :=
  s.peek_pokeBytes_outside (by rw [s.regsTo_length]; omega)

theorem bcdDigits_map_toNat (v : Byte) :
    (bcdDigits v).map BitVec.toNat = [v.toNat / 100, v.toNat / 10 % 10, v.toNat % 10] := by
  have hv := v.isLt
  simp only [bcdDigits, List.map_cons, List.map_nil, BitVec.toNat_ofNat]
  rw [Nat.mod_eq_of_lt (a := v.toNat / 100) (by omega), Nat.mod_eq_of_lt (a := v.toNat / 10 % 10) (by omega),
    Nat.mod_eq_of_lt (a := v.toNat % 10) (by omega)]

/-- After the decimal digits of `v` are stored from `b` the byte `k` places above it is the `k`-th digit, hundreds
first. -/
theorem State.peek_pokeDigits {s : State} {v : Byte} {a b k d : Nat}
    (hd : [v.toNat / 100, v.toNat / 10 % 10, v.toNat % 10][k]? = some d) (ha : a = b + k) :
    ((s.pokeBytes b (bcdDigits v)).peek a).toNat = d := by
  rw [← bcdDigits_map_toNat, List.getElem?_map, Option.map_eq_some_iff] at hd
  obtain ⟨byte, hbyte, rfl⟩ := hd
  obtain ⟨hk, rfl⟩ := List.getElem?_eq_some_iff.mp hbyte
  rw [ha, s.peek_pokeBytes_inside b hk]

theorem State.peek_pokeDigits_outside {s : State} {v : Byte} {a b : Nat} (h : a < b ∨ b + 2 < a) :
    (s.pokeBytes b (bcdDigits v)).peek a = s.peek a :=
  s.peek_pokeBytes_outside (by rw [bcdDigits_length]; omega)

/-- A fetch inside memory after bytes are written reads the memory they are in (rule R41). -/
theorem State.fetch_pokeBytes {s : State} {a : Nat} {bs : List Byte} (h : s.pc.toNat + 1 < s.params.memSize) :
    (s.pokeBytes a bs).fetch =
      .ok (wordOfBytes ((s.pokeBytes a bs).peek s.pc.toNat) ((s.pokeBytes a bs).peek (s.pc.toNat + 1))) :=
  State.memRead16_eq_ok (s := s.pokeBytes a bs) h

/-- Settles O31: the next fetch reads the memory the store left, at an address of the range and at any other. -/
theorem storesAreSeenByTheNextFetch : Obligations.StoresAreSeenByTheNextFetch := by
  unfold Obligations.StoresAreSeenByTheNextFetch
  refine ⟨fun x s hr hpc => ?_, fun x s hr hpc => ?_⟩
  · exact ⟨_, _, _, exec_storeRegs_eq_next hr, State.fetch_pokeBytes hpc, fun _ => State.peek_pokeRegs,
      fun _ => State.peek_pokeRegs, State.peek_pokeRegs_outside, State.peek_pokeRegs_outside⟩
  · exact ⟨_, _, _, exec_ldB_eq_next hr, State.fetch_pokeBytes hpc,
      State.peek_pokeDigits (k := 0) rfl, State.peek_pokeDigits (k := 1) rfl, State.peek_pokeDigits (k := 2) rfl,
      State.peek_pokeDigits (k := 0) rfl, State.peek_pokeDigits (k := 1) rfl, State.peek_pokeDigits (k := 2) rfl,
      State.peek_pokeDigits_outside, State.peek_pokeDigits_outside⟩

/-! ### The range an instruction stores into (rules R32, R35) -/

/-- A byte an instruction may write lies in the range of `LD B` or of `LD [I]`. -/
theorem mayWrite_byte_iff (i : Instr) (s : State) (a : Nat) : mayWrite i s (.byte a) ↔
    (∃ x, i = .ldB x ∧ s.baseAddr ≤ a ∧ a ≤ s.baseAddr + 2) ∨
    (∃ x, i = .storeRegs x ∧ s.baseAddr ≤ a ∧ a ≤ s.baseAddr + x.toNat) := by
  cases i <;> simp [mayWrite]

/-- Settles O33: a byte outside the stored range is none the instruction may write, so its frame leaves it. -/
theorem onlyTheStoredRangeChanges : Obligations.OnlyTheStoredRangeChanges := by
  unfold Obligations.OnlyTheStoredRangeChanges
  intro i s t h a hB hR
  refine exec_frame h (.byte a) fun hw => ?_
  rcases (mayWrite_byte_iff i s a).mp hw with ⟨x, hi, hlo, hhi⟩ | ⟨x, hi, hlo, hhi⟩
  · have := hB x hi
    omega
  · have := hR x hi
    omega

/-! ### The default font (rule R37) -/

/-- With the font enabled the font region holds the glyph bytes after reset. -/
theorem Params.map_resetByte_eq_font {p : Params} (he : p.fontEnable = true) :
    (List.range p.font.length).map (fun k => p.resetByte (p.fontBase + k)) = p.font := by
  refine List.ext_getElem (by simp) fun k hk hk' => ?_
  have hbyte := Params.resetByte_of_mem_font (p := p) (a := p.fontBase + k) ⟨he, by omega, by omega⟩
  rw [Nat.add_sub_cancel_left, List.getElem?_eq_getElem hk'] at hbyte
  rw [List.getElem_map, List.getElem_range]
  exact (Option.some.inj hbyte).symm

theorem State.peek_reset (a : Nat) : State.reset.peek a = Params.default.resetByte a := rfl

/-- Settles O52: memory after reset holds the default font, which is the rule's table, from address 0. -/
theorem defaultFontLiesAtZero : Obligations.DefaultFontLiesAtZero := by
  unfold Obligations.DefaultFontLiesAtZero
  calc (List.range 80).map State.reset.peek
    _ = (List.range 80).map fun k => Params.default.resetByte (Params.default.fontBase + k) :=
      List.map_congr_left fun k _ => by rw [State.peek_reset, show Params.default.fontBase = 0 from rfl, Nat.zero_add]
    _ = Params.default.font := Params.map_resetByte_eq_font rfl
    _ = _ := rfl

/-! ### `Load` (rules R42, R43) -/

theorem loadEvent_eq_fault {s : State} {bytes : List Byte} (hf : s.faultKind = none)
    (h : s.params.memSize < 0x200 + bytes.length) : loadEvent bytes s = .fault .romTooLarge := by
  rw [loadEvent_live bytes hf, if_neg (by omega)]

theorem loadEvent_eq_next {s : State} {bytes : List Byte} (hf : s.faultKind = none)
    (h : 0x200 + bytes.length ≤ s.params.memSize) : loadEvent bytes s = .next (s.pokeBytes 0x200 bytes) := by
  rw [loadEvent_live bytes hf, if_pos h]

theorem event_load (s : State) (bytes : List Byte) : event (.load bytes) s = settle s (loadEvent bytes s) := rfl

@[simp] theorem State.faultCode_latchFault (s : State) (k : Fault) : (s.latchFault k).faultCode = k.code := rfl

/-- Settles O53: the image is written at 0x200, or the load's fault is latched. -/
theorem loadCopiesTheImage : Obligations.LoadCopiesTheImage := by
  unfold Obligations.LoadCopiesTheImage
  refine fun s bytes hf => ⟨fun h => ?_, fun h => ?_⟩
  · have hload := loadEvent_eq_fault hf h
    rw [event_load, hload]
    exact ⟨rfl, s.faultCode_latchFault .romTooLarge⟩
  · have hload := loadEvent_eq_next hf h
    rw [event_load, hload]
    exact ⟨_, rfl, rfl, fun _ => s.peek_pokeBytes_inside 0x200, onlyChanges_pokeBytes s 0x200 bytes⟩

/-- A load has no move once the protocol's one load is spent. -/
theorem Session.event_load_of_closed {h : Session} (bytes : List Byte) (hc : h.loadOpen = false) :
    h.event (.load bytes) = none := by
  simp [Session.event, hc]

/-- What a move leaves of the permission to load: `Reset` gives it, `Load` and `Step` end it, and the other two events
keep it. -/
theorem Session.event_loadOpen {h h2 : Session} {e : Event} (he : h.event e = some h2) :
    h2.loadOpen = match e with
      | .reset => true
      | .load _ | .step _ => false
      | .tick | .setKey _ _ => h.loadOpen := by
  cases e with
  | load bytes =>
    unfold Session.event at he
    split_ifs at he
    obtain rfl := Option.some.inj he
    rfl
  | reset | step | tick | setKey =>
    obtain rfl := Option.some.inj he
    rfl

/-- No event but `Reset` lets a load come again. -/
theorem Session.event_keeps_closed {h h2 : Session} {e : Event} (hne : e ≠ .reset) (hc : h.loadOpen = false)
    (he : h.event e = some h2) : h2.loadOpen = false := by
  rw [Session.event_loadOpen he]
  cases e with
  | reset => exact absurd rfl hne
  | load | step => rfl
  | tick | setKey => exact hc

/-- A run without `Reset` keeps the load spent, by induction over its events. -/
theorem Session.run_keeps_closed {h h2 : Session} {es : List Event} (hes : ∀ e ∈ es, e ≠ .reset)
    (hc : h.loadOpen = false) (hr : h.run es = some h2) : h2.loadOpen = false := by
  induction es generalizing h with
  | nil =>
    obtain rfl := Option.some.inj hr
    exact hc
  | cons e es ih =>
    obtain ⟨h1, he, hr1⟩ := Option.bind_eq_some_iff.mp hr
    obtain ⟨hne, hes'⟩ := List.forall_mem_cons.mp hes
    exact ih hes' (Session.event_keeps_closed hne hc he) hr1

/-- Settles O60: a load or a step spends the one load, and no event but `Reset` gives it back. -/
theorem lateLoadHasNoMove : Obligations.LateLoadHasNoMove := by
  unfold Obligations.LateLoadHasNoMove
  intro h h1 h2 e es bytes hspend hes he hr
  have hc : h1.loadOpen = false := by
    rw [Session.event_loadOpen he]
    rcases hspend with ⟨b, rfl⟩ | ⟨r, rfl⟩ <;> rfl
  exact Session.event_load_of_closed bytes (Session.run_keeps_closed hes hc hr)

end Sys2Proof.Machine

/-!
Encoding (30_encoding.md): what the decoder answers, said once for every word, and from it that decoding and encoding
are inverse, the opcode map as mask and match, and the illegal words; then the step cycle that runs what was decoded.
-/

namespace Sys2Proof

/-! ### Decode of encode (rules R50, R52) -/

/-- The bytes decode as their first word does, and the bytes after it are left. -/
theorem decode_cons_cons (hi lo : Byte) (rest : List Byte) :
    decode (hi :: lo :: rest) = (decodeWord (wordOfBytes hi lo)).map (·, rest) := by
  rw [decode]
  cases decodeWord (wordOfBytes hi lo) <;> rfl

/-- The families and the other fixed bits lead the decoder back to the instruction, one format at a time. -/
theorem decodeWord_encodeWord {i : Instr} (h : i.WellFormed) : decodeWord (encodeWord i) = .ok i := by
  cases i with
  | cls | ret => rfl
  | jp | call | ldI | jpV0 | seByte | sneByte | ldByte | addByte | rnd | seReg | sneReg =>
    simp [encodeWord, decodeWord]
  | ldReg | orReg | andReg | xorReg | addReg | sub | shr | subn | shl => simp [encodeWord, decodeWord, decodeFam8]
  | skp | sknp => simp [encodeWord, decodeWord, decodeFamE]
  | ldVxDt | ldVxK | ldDtVx | ldStVx | addI | ldF | ldB | storeRegs | loadRegs =>
    simp [encodeWord, decodeWord, decodeFamF]
  | drw x y n =>
    have hn : n % 16 = n := Nat.mod_eq_of_lt (Nat.lt_succ_of_le (of_decide_eq_true h))
    simp [encodeWord, decodeWord, hn]

theorem decode_encode_append {i : Instr} (h : i.WellFormed) (rest : List Byte) :
    decode (encode i ++ rest) = .ok (i, rest) := by
  rw [encode, bytesOfWord, List.cons_append, List.cons_append, List.nil_append, decode_cons_cons, wordOfBytes_bytes,
    decodeWord_encodeWord h]
  rfl

/-- Settles O1: for the word, and for its bytes in front of any others. -/
theorem decodeOfEncodeIsTheInstruction : Obligations.DecodeOfEncodeIsTheInstruction := by
  unfold Obligations.DecodeOfEncodeIsTheInstruction
  exact fun _ h => ⟨decodeWord_encodeWord h, decode_encode_append h⟩

/-! ### What the decoder answers (rules R55, R56) -/

/-- The six patterns of rule R56's table. -/
def IllegalWord (op : Word) : Prop :=
  (opFam op = 0x0 ∧ opNNN op ≠ 0x0E0 ∧ opNNN op ≠ 0x0EE) ∨
  (opFam op = 0x5 ∧ opN op ≠ 0) ∨
  (opFam op = 0x8 ∧ opN op ∈ ([0x8, 0x9, 0xA, 0xB, 0xC, 0xD, 0xF] : List Nibble)) ∨
  (opFam op = 0x9 ∧ opN op ≠ 0) ∨
  (opFam op = 0xE ∧ opNN op ≠ 0x9E ∧ opNN op ≠ 0xA1) ∨
  (opFam op = 0xF ∧ opNN op ∉ ([0x07, 0x0A, 0x15, 0x18, 0x1E, 0x29, 0x33, 0x55, 0x65] : List Byte))

/-- What an answer to the word `op` may be: a well-formed instruction whose word `op` is, or `InvalidOpcode` for an
illegal word. -/
def Answers (op : Word) : Except DecodeError Instr → Prop
  | .ok i => i.WellFormed ∧ encodeWord i = op
  | .error e => e = .invalidOpcode ∧ IllegalWord op

theorem answers_decodeFam0 (nnn : Addr12) : Answers (fmtA 0x0 nnn) (decodeFam0 nnn) := by
  unfold decodeFam0
  split
  case h_3 h0 h1 => exact ⟨rfl, by simpa [IllegalWord, BitVec.toNat_eq] using ⟨h0, h1⟩⟩
  all_goals next h =>
    obtain ⟨-, rfl⟩ := BitVec.toNat_eq_nat.mp h
    exact ⟨rfl, rfl⟩

theorem answers_decodeFam8 (x y : Reg) (n : Nibble) : Answers (fmtXYN 0x8 x y n) (decodeFam8 x y n) := by
  unfold decodeFam8
  split
  case h_10 =>
    have hn : n ∈ ([0x8, 0x9, 0xA, 0xB, 0xC, 0xD, 0xF] : List Nibble) := by
      revert n
      decide
    exact ⟨rfl, by simpa [IllegalWord] using hn⟩
  all_goals next h =>
    obtain ⟨-, rfl⟩ := BitVec.toNat_eq_nat.mp h
    exact ⟨rfl, rfl⟩

theorem answers_decodeFamE (x : Reg) (nn : Byte) : Answers (fmtXB 0xE x nn) (decodeFamE x nn) := by
  unfold decodeFamE
  split
  case h_3 h0 h1 => exact ⟨rfl, by simpa [IllegalWord, BitVec.toNat_eq] using ⟨h0, h1⟩⟩
  all_goals next h =>
    obtain ⟨-, rfl⟩ := BitVec.toNat_eq_nat.mp h
    exact ⟨rfl, rfl⟩

theorem answers_decodeFamF (x : Reg) (nn : Byte) : Answers (fmtXB 0xF x nn) (decodeFamF x nn) := by
  unfold decodeFamF
  split
  case h_10 =>
    simp only [imp_false] at *
    exact ⟨rfl, by simp [IllegalWord, BitVec.toNat_eq, *]⟩
  all_goals next h =>
    obtain ⟨-, rfl⟩ := BitVec.toNat_eq_nat.mp h
    exact ⟨rfl, rfl⟩

theorem fmtA_of_fam {op : Word} {f : Nibble} (hf : opFam op = f) : fmtA f (opNNN op) = op := hf ▸ fmtA_fields op

theorem fmtXB_of_fam {op : Word} {f : Nibble} (hf : opFam op = f) : fmtXB f (opX op) (opNN op) = op :=
  hf ▸ fmtXB_fields op

theorem fmtXYN_of_fam {op : Word} {f : Nibble} (hf : opFam op = f) : fmtXYN f (opX op) (opY op) (opN op) = op :=
  hf ▸ fmtXYN_fields op

/-- Families 0, 8, E and F answer through their own decoders, 5 and 9 test the low nibble, and no other family rejects a
word; the `n`-th branch is that of family `n - 1`. -/
theorem answers_decodeWord (op : Word) : Answers op (decodeWord op) := by
  unfold decodeWord
  split
  case h_1 h => simpa only [fmtA_of_fam (BitVec.eq_of_toNat_eq (y := 0x0) h)] using answers_decodeFam0 (opNNN op)
  case h_9 h =>
    simpa only [fmtXYN_of_fam (BitVec.eq_of_toNat_eq (y := 0x8) h)] using answers_decodeFam8 (opX op) (opY op) (opN op)
  case h_15 h =>
    simpa only [fmtXB_of_fam (BitVec.eq_of_toNat_eq (y := 0xE) h)] using answers_decodeFamE (opX op) (opNN op)
  case h_16 h =>
    simpa only [fmtXB_of_fam (BitVec.eq_of_toNat_eq (y := 0xF) h)] using answers_decodeFamF (opX op) (opNN op)
  case h_17 =>
    exfalso
    have hlt := (opFam op).isLt
    simp only [imp_false] at *
    omega
  case h_2 h | h_3 h | h_11 h | h_12 h => exact ⟨rfl, fmtA_of_fam (BitVec.eq_of_toNat_eq h)⟩
  case h_4 h | h_5 h | h_7 h | h_8 h | h_13 h => exact ⟨rfl, fmtXB_of_fam (BitVec.eq_of_toNat_eq h)⟩
  case h_6 h | h_10 h =>
    split
    next hn => exact ⟨rfl, by rw [encodeWord, ← hn, fmtXYN_of_fam (BitVec.eq_of_toNat_eq h)]⟩
    next hn => exact ⟨rfl, by simpa [IllegalWord, BitVec.toNat_eq (x := opFam op), h] using hn⟩
  case h_14 h =>
    have hn := (opN op).isLt
    refine ⟨decide_eq_true (by omega), ?_⟩
    rw [encodeWord, BitVec.ofNat_toNat, BitVec.setWidth_eq, fmtXYN_of_fam (BitVec.eq_of_toNat_eq h)]

theorem decodeWord_eq_ok {op : Word} {i : Instr} (h : decodeWord op = .ok i) : i.WellFormed ∧ encodeWord i = op := by
  have ha := answers_decodeWord op
  rwa [h] at ha

theorem decodeWord_eq_error {op : Word} {e : DecodeError} (h : decodeWord op = .error e) :
    e = .invalidOpcode ∧ IllegalWord op := by
  have ha := answers_decodeWord op
  rwa [h] at ha

/-- Settles O2: read off what the decoder answers. -/
theorem encodeOfDecodeIsTheWord : Obligations.EncodeOfDecodeIsTheWord := by
  unfold Obligations.EncodeOfDecodeIsTheWord
  exact fun _ _ => decodeWord_eq_ok

/-! ### The illegal words (rule R56) -/

/-- No instruction has an illegal word: its family and its other fixed bits are in none of the patterns. -/
theorem not_illegalWord_encodeWord (i : Instr) : ¬ IllegalWord (encodeWord i) := by
  cases i with
  | cls | ret => unfold IllegalWord; decide
  | _ => simp [encodeWord, IllegalWord]

theorem decodeWord_eq_invalidOpcode_iff (op : Word) : decodeWord op = .error .invalidOpcode ↔ IllegalWord op := by
  constructor
  · exact fun h => (decodeWord_eq_error h).2
  · intro hill
    cases h : decodeWord op with
    | error e => rw [(decodeWord_eq_error h).1]
    | ok i => exact absurd ((decodeWord_eq_ok h).2 ▸ hill) (not_illegalWord_encodeWord i)

/-- Settles O5: no instruction has an illegal word, and the decoder rejects no other. -/
theorem illegalWordsAreExactlyThoseListed : Obligations.IllegalWordsAreExactlyThoseListed := by
  unfold Obligations.IllegalWordsAreExactlyThoseListed
  exact decodeWord_eq_invalidOpcode_iff

/-! ### The opcode map as mask and match (rule R55) -/

/-- Every instruction's word is in the instruction's row, and that row is in the table. -/
theorem row_matches_encodeWord (i : Instr) : i.row.matches (encodeWord i) = true ∧ i.row ∈ opcodeTable := by
  cases i
  open Laws.InItsRow in
  exacts [cls, ret, jp _, call _, seByte _ _, sneByte _ _, seReg _ _, ldByte _ _, addByte _ _, ldReg _ _, orReg _ _,
    andReg _ _, xorReg _ _, addReg _ _, sub _ _, shr _ _, subn _ _, shl _ _, sneReg _ _, ldI _, jpV0 _, rnd _ _,
    drw _ _ _, skp _, sknp _, ldVxDt _, ldVxK _, ldDtVx _, ldStVx _, addI _, ldF _, ldB _, storeRegs _, loadRegs _]

/-- A field of a word, all of whose bits the mask keeps, is that field of the pattern. -/
theorem extractLsb'_of_mask {op m p : Word} {k w : Nat} (h : op &&& m = p)
    (hm : m.extractLsb' k w = BitVec.allOnes w) : op.extractLsb' k w = p.extractLsb' k w := by
  rw [← h, BitVec.extractLsb'_and, hm, BitVec.and_allOnes]

theorem opFam_of_mask {op m p : Word} (h : op &&& m = p) (hm : opFam m = 0xF) : opFam op = opFam p :=
  extractLsb'_of_mask h hm

theorem opN_of_mask {op m p : Word} (h : op &&& m = p) (hm : opN m = 0xF) : opN op = opN p :=
  extractLsb'_of_mask h hm

theorem opNN_of_mask {op m p : Word} (h : op &&& m = p) (hm : opNN m = 0xFF) : opNN op = opNN p :=
  extractLsb'_of_mask h hm

/-- A word of a row decodes to an instruction of the row: the fields that the decoder tests are those the mask keeps. -/
theorem map_row_decodeWord {op : Word} {i : Instr} (h : i.row.matches op = true) :
    (decodeWord op).map Instr.row = .ok i.row := by
  have h : op &&& i.row.mask = i.row.pattern := eq_of_beq h
  cases i with dsimp only [Instr.row] at h
  | cls | ret =>
    rw [(BitVec.and_allOnes (x := op)).symm.trans h]
    rfl
  | jp | call | ldI | jpV0 | seByte | sneByte | ldByte | addByte | rnd | drw =>
    rw [decodeWord, opFam_of_mask h rfl]
    rfl
  | seReg | sneReg | ldReg | orReg | andReg | xorReg | addReg | sub | shr | subn | shl =>
    rw [decodeWord, opFam_of_mask h rfl, opN_of_mask h rfl]
    rfl
  | skp | sknp | ldVxDt | ldVxK | ldDtVx | ldStVx | addI | ldF | ldB | storeRegs | loadRegs =>
    rw [decodeWord, opFam_of_mask h rfl, opNN_of_mask h rfl]
    rfl

/-- Every row of the table is the row of an instruction. -/
theorem exists_row_eq_of_mem_opcodeTable {r : OpcodeRow} (h : r ∈ opcodeTable) : ∃ i : Instr, i.row = r := by
  simp only [opcodeTable, ← List.map_append] at h
  obtain ⟨i, -, hi⟩ := List.mem_map.mp h
  exact ⟨i, hi⟩

/-- Settles O3: a matching row is that of the decoded instruction, and a decoded instruction's own row matches. -/
theorem decodeSelectsTheMatchingRow : Obligations.DecodeSelectsTheMatchingRow := by
  unfold Obligations.DecodeSelectsTheMatchingRow
  refine fun op => ⟨fun r hr hm => ?_, fun hnone => ?_⟩
  · obtain ⟨i, rfl⟩ := exists_row_eq_of_mem_opcodeTable hr
    have hrow := map_row_decodeWord hm
    cases h : decodeWord op with
    | error e => rw [h] at hrow; cases hrow
    | ok j => rw [h] at hrow; exact ⟨j, rfl, Except.ok.inj hrow⟩
  · cases h : decodeWord op with
    | error e => rw [(decodeWord_eq_error h).1]
    | ok i =>
      obtain ⟨hm, hmem⟩ := row_matches_encodeWord i
      rw [(decodeWord_eq_ok h).2, hnone _ hmem] at hm
      cases hm

/-- Two rows that both match a word agree on the bits that both masks keep. -/
theorem pattern_and_mask_of_matches {r q : OpcodeRow} {op : Word} (hr : r.matches op = true)
    (hq : q.matches op = true) : r.pattern &&& q.mask = q.pattern &&& r.mask := by
  have hr : op &&& r.mask = r.pattern := eq_of_beq hr
  have hq : op &&& q.mask = q.pattern := eq_of_beq hq
  rw [← hr, ← hq, BitVec.and_assoc, BitVec.and_assoc, BitVec.and_comm r.mask]

/-- Settles O4: any two rows of the table differ in a bit that both masks keep. -/
theorem opcodeRowsAreDisjoint : Obligations.OpcodeRowsAreDisjoint := by
  unfold Obligations.OpcodeRowsAreDisjoint
  have hdiffer : opcodeTable.Pairwise fun r q => r.pattern &&& q.mask ≠ q.pattern &&& r.mask := by decide
  exact hdiffer.imp fun hne op hr => Bool.eq_false_iff.mpr fun hq => hne (pattern_and_mask_of_matches hr hq)

/-- Settles O6: each of the ten words is decoded. -/
theorem writtenOutWordsDecode : Obligations.WrittenOutWordsDecode := by
  unfold Obligations.WrittenOutWordsDecode
  decide

end Sys2Proof

namespace Sys2Proof.Machine

/-! ### The step that runs the decoded instruction (rules R54, R57) -/

/-- A live engine that waits for no key runs the instruction whose word it fetches. -/
theorem stepWith_eq_exec {s : State} {op : Word} {i : Instr} (rnd : Byte) (hf : s.faultKind = none)
    (hw : s.wait = false) (hop : s.fetch = .ok op) (hi : decodeWord op = .ok i) :
    stepWith rnd s = exec i (s.ready rnd) := by
  simp [stepWith, runInstr, hf, hw, hop, hi]

theorem decodeWord_of_decode_pair {hi lo : Byte} {i : Instr} (h : decode [hi, lo] = .ok (i, [])) :
    decodeWord (wordOfBytes hi lo) = .ok i := by
  rw [decode_cons_cons] at h
  cases hd : decodeWord (wordOfBytes hi lo) with
  | error e => rw [hd] at h; cases h
  | ok j => rw [hd] at h; cases h; rfl

/-- Settles O7: the fetch is in range and reads the two bytes; `step` is the same in a state that differs in the count
of draws alone. -/
theorem stepRunsTheDecodedInstruction : Obligations.StepRunsTheDecodedInstruction := by
  unfold Obligations.StepRunsTheDecodedInstruction
  intro s i rnd hf hw hpc hd
  have hop := State.memRead16_eq_ok hpc
  have hi := decodeWord_of_decode_pair hd
  exact ⟨stepWith_eq_exec rnd hf hw hop hi, stepWith_eq_exec (s := s.nextDraw) _ hf hw hop hi⟩

/-- Every instruction has a meaning (rule R57): the ones that check end in a fault or a next state, the others
complete. -/
theorem exec_ne_refused (i : Instr) (s : State) (r : Refusal) : exec i s ≠ .refused r := by
  intro h
  cases i with
  | call nnn => rcases execCall_cases nnn s with ⟨_, e⟩ | ⟨_, e⟩ <;> cases e.symm.trans h
  | ret => rcases execRet_cases s with ⟨_, e⟩ | ⟨_, e⟩ <;> cases e.symm.trans h
  | drw x y n => rcases execDrw_cases x y n s with ⟨_, _, e⟩ | ⟨_, e⟩ <;> cases e.symm.trans h
  | ldB x => rcases execLdB_cases x s with ⟨_, e⟩ | ⟨_, e⟩ <;> cases e.symm.trans h
  | storeRegs x => rcases execStoreRegs_cases x s with ⟨_, e⟩ | ⟨_, e⟩ <;> cases e.symm.trans h
  | loadRegs x => rcases execLoadRegs_cases x s with ⟨_, e⟩ | ⟨_, e⟩ <;> cases e.symm.trans h
  | _ => cases h

theorem stepWith_ne_refused (rnd : Byte) (s : State) (r : Refusal) : stepWith rnd s ≠ .refused r := by
  intro h
  rcases stepWith_cases rnd s with ⟨_, e⟩ | ⟨_, _, e⟩ | ⟨_, _, e⟩
  · cases e.symm.trans h
  · cases e.symm.trans h
  · rw [e] at h
    rcases runInstr_cases rnd s with ⟨_, e⟩ | ⟨_, _, _, e⟩ | ⟨_, i, _, _, e⟩
    · cases e.symm.trans h
    · cases e.symm.trans h
    · exact exec_ne_refused i _ r (e.symm.trans h)

/-- Settles O13: a step leaves the engine alone, polls the keys, faults, or runs an instruction, and none is refused. -/
theorem noStepIsRefused : Obligations.NoStepIsRefused := by
  unfold Obligations.NoStepIsRefused
  exact fun s rnd r => ⟨stepWith_ne_refused rnd s r, stepWith_ne_refused _ s.nextDraw r⟩

end Sys2Proof.Machine

/-!
Control flow (40_control_flow.md): the words of its instructions in the rules' own spelling, the calls and returns with
their checks, and the skips, said once for every condition.
-/

namespace Sys2Proof.Machine

/-! ### Words in the rules' own spelling (rule R52) -/

/-- A word decodes to the well-formed instruction that encodes as it. -/
theorem decodeWord_of_encodeWord_eq {i : Instr} {op : Word} (h : i.WellFormed) (e : encodeWord i = op) :
    decodeWord op = .ok i :=
  e ▸ decodeWord_encodeWord h

/-! ### Jumps (rules R70, R71, R78) -/

/-- The target of `JP V0` is the sum over the integers (rule R78): below 4096 + 256, it fits 16 bits. -/
theorem State.imm12_add_getV16_toNat (s : State) (nnn : Addr12) (x : Reg) :
    (imm12 nnn + s.getV16 x).toNat = nnn.toNat + (s.getV x).toNat := by
  have hv : (s.getV16 x).toNat = (s.getV x).toNat := BitVec.toNat_setWidth_of_le (by decide)
  rw [BitVec.toNat_add, imm12_toNat, hv]
  omega

/-- Settles O14: both jumps are one write of `PC`. -/
theorem jumpsSetPc : Obligations.JumpsSetPc := by
  unfold Obligations.JumpsSetPc
  intro nnn s
  exact ⟨⟨decodeWord_of_encodeWord_eq rfl (fmtA_eq_or 0x1 nnn), _, rfl, imm12_toNat nnn, onlyChanges_withPc s _⟩,
    decodeWord_of_encodeWord_eq rfl (fmtA_eq_or 0xB nnn), _, rfl, s.imm12_add_getV16_toNat nnn 0,
    onlyChanges_withPc s _⟩

/-! ### Calls and returns (rules R72, R73) -/

theorem exec_call_eq_fault (nnn : Addr12) {s : State} (h : 16 ≤ s.sp.toNat) :
    exec (.call nnn) s = .fault .stackOverflow :=
  (execCall_cases nnn s).elim And.right fun ⟨hlt, _⟩ => absurd hlt (by omega)

theorem exec_call_eq_next (nnn : Addr12) {s : State} (h : s.sp.toNat < 16) : exec (.call nnn) s =
    .next ((s.withStack (s.sp + 1) (s.stack.set s.sp.toNat s.pc h)).withPc (imm12 nnn)) :=
  (execCall_cases nnn s).elim (fun ⟨hge, _⟩ => absurd hge (by omega)) fun ⟨_, e⟩ => e

theorem exec_ret_eq_fault {s : State} (h : s.sp.toNat = 0) : exec .ret s = .fault .stackUnderflow :=
  (execRet_cases s).elim And.right fun ⟨hpos, _⟩ => absurd hpos (by omega)

theorem exec_ret_eq_next {s : State} (h : 0 < s.sp.toNat) : exec .ret s =
    .next ((s.withStack (s.sp - 1) s.stack).withPc (s.stackAt (s.sp - 1))) :=
  (execRet_cases s).elim (fun ⟨hz, _⟩ => absurd hz (by omega)) And.right

/-- The word on top of a stack that holds at most 16 is an entry of it (rules R14, R15). -/
theorem State.stack_top (s : State) (h : 0 < s.sp.toNat) (hle : s.sp.toNat ≤ 16) :
    s.stack[s.sp.toNat - 1]? = some (s.stackAt (s.sp - 1)) := by
  have hsub := toNat_sub_one h
  rw [s.stackAt_lt (by omega), ← hsub]
  exact Vector.getElem?_eq_getElem _

/-- Settles O15: the call that has room is one push and one write of `PC`. -/
theorem callPushesTheFollowingAddress : Obligations.CallPushesTheFollowingAddress := by
  unfold Obligations.CallPushesTheFollowingAddress
  intro nnn s
  refine ⟨decodeWord_of_encodeWord_eq rfl (fmtA_eq_or 0x2 nnn), fun h => exec_call_eq_fault nnn h.ge, fun h => ?_⟩
  have hnext := exec_call_eq_next nnn h
  exact ⟨_, hnext, Vector.getElem?_set_self h, toNat_add_one h, imm12_toNat nnn, exec_frame hnext⟩

/-- Settles O16: the return from a stack that is not empty is one pop, which writes no entry. -/
theorem returnPopsIntoPc : Obligations.ReturnPopsIntoPc := by
  unfold Obligations.ReturnPopsIntoPc
  intro s
  refine ⟨rfl, exec_ret_eq_fault, fun h => ?_⟩
  have hnext := exec_ret_eq_next h
  exact ⟨_, hnext, toNat_sub_one h, s.stack_top h, exec_frame hnext⟩

/-- Settles O19: the entry the return reads is the one the call stacked, since the call raised the depth by one. -/
theorem callThenReturnComesBack : Obligations.CallThenReturnComesBack := by
  unfold Obligations.CallThenReturnComesBack
  intro nnn s hroom
  obtain ⟨-, -, hcall⟩ := callPushesTheFollowingAddress nnn s
  obtain ⟨t, ht, hstacked, hup, -, -⟩ := hcall hroom
  obtain ⟨-, -, hret⟩ := returnPopsIntoPc t
  obtain ⟨u, hu, hdown, hpopped, -⟩ := hret (by omega)
  have hdepth : t.sp.toNat - 1 = s.sp.toNat := by omega
  rw [hdepth] at hdown hpopped
  have hpc : some u.pc = some s.pc := (hpopped (by omega)).symm.trans hstacked
  exact ⟨t, u, ht, hu, Option.some.inj hpc, BitVec.eq_of_toNat_eq hdown⟩

/-! ### Skips (rules R70, R74 to R77) -/

/-- An instruction that only skips completes, moves `PC` exactly when its condition holds, and changes nothing else. -/
theorem exec_skip {i : Instr} {s : State} {c : Bool} {p : Prop} [Decidable p]
    (he : exec i s = .next (s.skipIf c)) (hc : c = true ↔ p) :
    ∃ t, exec i s = .next t ∧ t.pc.toNat = (if p then (s.pc.toNat + 2) % 65536 else s.pc.toNat) ∧
      OnlyChanges (· = .pc) s t :=
  ⟨_, he, (s.skipIf_pc_toNat c).trans (if_congr hc rfl rfl), onlyChanges_skipIf s c⟩

/-- Settles O17: the two skips test equality and its negation. -/
theorem skipsOnLiteral : Obligations.SkipsOnLiteral := by
  unfold Obligations.SkipsOnLiteral
  intro x nn s
  exact ⟨⟨decodeWord_of_encodeWord_eq rfl (fmtXB_eq_or 0x3 x nn), exec_skip rfl beq_iff_eq⟩,
    decodeWord_of_encodeWord_eq rfl (fmtXB_eq_or 0x4 x nn), exec_skip rfl bne_iff_ne⟩

/-- Settles O18: the two skips test equality and its negation; the fixed low nibble of their words is 0. -/
theorem skipsOnRegister : Obligations.SkipsOnRegister := by
  unfold Obligations.SkipsOnRegister
  intro x y s
  exact ⟨⟨decodeWord_of_encodeWord_eq rfl (fmtXYN_eq_or 0x5 x y 0x0), exec_skip rfl beq_iff_eq⟩,
    decodeWord_of_encodeWord_eq rfl (fmtXYN_eq_or 0x9 x y 0x0), exec_skip rfl bne_iff_ne⟩

end Sys2Proof.Machine

/-!
Register operations (41_register_ops.md): what the arithmetic of the flag-defining instructions gives over the integers,
the two reads of a result written with its flag, and the instructions themselves.
-/

namespace Sys2Proof.Machine

/-! ### The results and flag bits over the integers (rules R5, R87 to R91) -/

theorem toNat_flagByte (f : Bool) : (flagByte f).toNat = f.toNat := by
  cases f <;> rfl

theorem flagByte_decide (p : Prop) [Decidable p] : flagByte (decide p) = if p then 1 else 0 :=
  if_congr decide_eq_true_iff rfl rfl

theorem addCarry_fst_toNat (a b : Byte) : (addCarry a b).1.toNat = (a.toNat + b.toNat) % 256 := BitVec.toNat_add a b

/-- The mathematical remainder: a difference below 0 wraps into 0 to 255. -/
theorem subNoBorrow_fst_toNat (a b : Byte) : ((subNoBorrow a b).1.toNat : Int) = (a.toNat - b.toNat : Int) % 256 := by
  have ha := a.isLt
  have hb := b.isLt
  simp only [subNoBorrow, BitVec.toNat_sub]
  omega

theorem shrOut_fst_toNat (a : Byte) : (shrOut a).1.toNat = a.toNat / 2 := by
  simp only [shrOut, BitVec.toNat_ushiftRight, Nat.shiftRight_eq_div_pow, pow_one]

theorem shrOut_flag_toNat (a : Byte) : (flagByte (shrOut a).2).toNat = a.toNat % 2 := by
  rw [toNat_flagByte]
  exact (Nat.toNat_testBit a.toNat 0).trans (by rw [pow_zero, Nat.div_one])

theorem shlOut_fst_toNat (a : Byte) : (shlOut a).1.toNat = a.toNat * 2 % 256 := by
  simp only [shlOut, BitVec.toNat_shiftLeft, Nat.shiftLeft_eq, pow_one, Nat.reducePow]

theorem shlOut_flag_toNat (a : Byte) : (flagByte (shlOut a).2).toNat = a.toNat / 128 := by
  have ha := a.isLt
  rw [toNat_flagByte]
  exact (Nat.toNat_testBit a.toNat 7).trans (by omega)

/-! ### A result written with its flag (rule R80) -/

theorem State.getV_setVFlag_flag (s : State) (x : Reg) (q : Byte × Bool) :
    (s.setVFlag x q).getV 0xF = flagByte q.2 := by
  rw [State.getV_setVFlag, if_pos rfl]

theorem State.getV_setVFlag_result (s : State) {x : Reg} (q : Byte × Bool) (hx : x ≠ 0xF) :
    (s.setVFlag x q).getV x = q.1 := by
  rw [State.getV_setVFlag, if_neg hx, if_pos rfl]

/-! ### Loads and immediate addition (rules R81 to R83) -/

/-- Settles O20: both loads are one write of `V[x]`. -/
theorem loadsOfARegister : Obligations.LoadsOfARegister := by
  unfold Obligations.LoadsOfARegister
  exact ⟨fun x nn s => ⟨decodeWord_of_encodeWord_eq rfl (fmtXB_eq_or 0x6 x nn), _, rfl, s.getV_setV_same x nn,
      onlyChanges_setV s x nn⟩,
    fun x y s => ⟨decodeWord_of_encodeWord_eq rfl (fmtXYN_eq_or 0x8 x y 0x0), _, rfl, s.getV_setV_same x _,
      onlyChanges_setV s x _⟩⟩

/-- Settles O21: the sum is one write of `V[x]`, and no flag is written after it. -/
theorem addImmediateWrapsWithoutFlag : Obligations.AddImmediateWrapsWithoutFlag := by
  unfold Obligations.AddImmediateWrapsWithoutFlag
  intro x nn s
  refine ⟨decodeWord_of_encodeWord_eq rfl (fmtXB_eq_or 0x7 x nn), _, rfl, ?_, onlyChanges_setV s x _⟩
  rw [State.getV_setV_same, BitVec.toNat_add]

/-! ### Bitwise operations (rules R84 to R86) -/

/-- Settles O22: each operation is one write of `V[x]`, so `VF` changes as a destination alone. -/
theorem bitwiseOperations : Obligations.BitwiseOperations := by
  unfold Obligations.BitwiseOperations
  intro x y s
  refine ⟨⟨decodeWord_of_encodeWord_eq rfl (fmtXYN_eq_or 0x8 x y 0x1), _, rfl, fun b => ?_, onlyChanges_setV s x _⟩,
    ⟨decodeWord_of_encodeWord_eq rfl (fmtXYN_eq_or 0x8 x y 0x2), _, rfl, fun b => ?_, onlyChanges_setV s x _⟩,
    decodeWord_of_encodeWord_eq rfl (fmtXYN_eq_or 0x8 x y 0x3), _, rfl, fun b => ?_, onlyChanges_setV s x _⟩
  · rw [State.getV_setV_same, BitVec.getLsbD_or]
  · rw [State.getV_setV_same, BitVec.getLsbD_and]
  · rw [State.getV_setV_same, BitVec.getLsbD_xor]

/-! ### Arithmetic with a flag (rules R87, R88, R90) -/

/-- Settles O23: the flag is written after the sum, so it is what `VF` holds also when `x` is 15. -/
theorem addSetsCarry : Obligations.AddSetsCarry := by
  unfold Obligations.AddSetsCarry
  intro x y s
  refine ⟨decodeWord_of_encodeWord_eq rfl (fmtXYN_eq_or 0x8 x y 0x4), _, rfl, fun hx => ?_, ?_,
    onlyChanges_setVFlag s x _⟩
  · rw [State.getV_setVFlag_result s _ hx, addCarry_fst_toNat]
  · exact (s.getV_setVFlag_flag x _).trans (flagByte_decide _)

/-- An instruction that writes a difference and its flag leaves `V[x]` the difference modulo 256 and `VF`, written last,
NOT borrow. -/
theorem exec_subNoBorrow {i : Instr} {s : State} {x : Reg} {a b : Byte}
    (he : exec i s = .next (s.setVFlag x (subNoBorrow a b))) :
    ∃ t, exec i s = .next t ∧ (x ≠ 0xF → ((t.getV x).toNat : Int) = (a.toNat - b.toNat : Int) % 256) ∧
      t.getV 0xF = (if b.toNat ≤ a.toNat then 1 else 0) ∧ OnlyChanges (fun p => p = .reg x ∨ p = .reg 0xF) s t := by
  refine ⟨_, he, fun hx => ?_, (s.getV_setVFlag_flag x _).trans (flagByte_decide _), onlyChanges_setVFlag s x _⟩
  rw [State.getV_setVFlag_result s _ hx, subNoBorrow_fst_toNat]

/-- Settles O24: `SUB` and `SUBN` write the same difference with the operands exchanged. -/
theorem subtractionsSetNoBorrow : Obligations.SubtractionsSetNoBorrow := by
  unfold Obligations.SubtractionsSetNoBorrow
  intro x y s
  exact ⟨⟨decodeWord_of_encodeWord_eq rfl (fmtXYN_eq_or 0x8 x y 0x5), exec_subNoBorrow rfl⟩,
    decodeWord_of_encodeWord_eq rfl (fmtXYN_eq_or 0x8 x y 0x7), exec_subNoBorrow rfl⟩

/-! ### Shifts (rules R89, R91) -/

/-- An instruction that writes a result and its flag leaves `V[x]` the result, unless the flag, written last into `VF`,
overwrites it. -/
theorem exec_setVFlag_toNat {i : Instr} {s : State} {x : Reg} {q : Byte × Bool} {r f : Nat}
    (he : exec i s = .next (s.setVFlag x q)) (hr : q.1.toNat = r) (hf : (flagByte q.2).toNat = f) :
    ∃ t, exec i s = .next t ∧ (x ≠ 0xF → (t.getV x).toNat = r) ∧ (t.getV 0xF).toNat = f ∧
      OnlyChanges (fun p => p = .reg x ∨ p = .reg 0xF) s t := by
  refine ⟨_, he, fun hx => ?_, ?_, onlyChanges_setVFlag s x q⟩
  · rw [State.getV_setVFlag_result s q hx, hr]
  · rw [State.getV_setVFlag_flag, hf]

/-- Settles O25: under either setting of `SHIFT_SOURCE_VY` the source of the statement is the model's. -/
theorem shiftsSetTheBitShiftedOut : Obligations.ShiftsSetTheBitShiftedOut := by
  unfold Obligations.ShiftsSetTheBitShiftedOut
  intro x y s src hsrc
  obtain rfl : src = s.shiftSource x y := hsrc
  exact ⟨⟨decodeWord_of_encodeWord_eq rfl (fmtXYN_eq_or 0x8 x y 0x6),
      exec_setVFlag_toNat rfl (shrOut_fst_toNat _) (shrOut_flag_toNat _)⟩,
    decodeWord_of_encodeWord_eq rfl (fmtXYN_eq_or 0x8 x y 0xE),
      exec_setVFlag_toNat rfl (shlOut_fst_toNat _) (shlOut_flag_toNat _)⟩

end Sys2Proof.Machine

/-!
Index and memory (42_index_memory.md): the words of family F in the rules' own spelling, the arithmetic of the
instructions that write `I`, and the two instructions that store a range and the one that loads it.
-/

namespace Sys2Proof.Machine

/-! ### Words that name one register (rule R52) -/

/-- A word of one register field and a literal is the word of register 0 with the field filled in. -/
theorem fmtXB_eq_zero_or (f : Nibble) (x : Reg) (nn : Byte) :
    fmtXB f x nn = fmtXB f 0 nn ||| x.setWidth 16 <<< 8 := by
  have hzero : (0 : Reg).setWidth 16 <<< 8 = 0#16 := rfl
  rw [fmtXB_eq_or f x, fmtXB_eq_or f 0, hzero, BitVec.or_zero]
  ac_rfl

/-! ### Stores (rules R98, R99) -/

theorem exec_ldB_eq_fault {x : Reg} {s : State} (h : s.params.memSize ≤ s.baseAddr + 2) :
    exec (.ldB x) s = .fault .addressFault :=
  (execLdB_cases x s).elim And.right fun ⟨hlt, _⟩ => absurd hlt (by omega)

theorem exec_storeRegs_eq_fault {x : Reg} {s : State} (h : s.params.memSize ≤ s.baseAddr + x.toNat) :
    exec (.storeRegs x) s = .fault .addressFault :=
  (execStoreRegs_cases x s).elim And.right fun ⟨hlt, _⟩ => absurd hlt (by omega)

/-- Settles O28: the store that has room writes the three digits, hundreds first. -/
theorem bcdStoresThreeDigits : Obligations.BcdStoresThreeDigits := by
  unfold Obligations.BcdStoresThreeDigits
  intro x s
  refine ⟨decodeWord_of_encodeWord_eq rfl (fmtXB_eq_zero_or 0xF x 0x33), exec_ldB_eq_fault, fun h => ?_⟩
  have hnext := exec_ldB_eq_next (x := x) h
  exact ⟨_, hnext, State.peek_pokeDigits (k := 0) rfl rfl, State.peek_pokeDigits (k := 1) rfl rfl,
    State.peek_pokeDigits (k := 2) rfl rfl, exec_frame hnext⟩

/-- Settles O29: the store that has room writes the registers in their order and no other part, `I` included. -/
theorem bulkStoreWritesTheRegisters : Obligations.BulkStoreWritesTheRegisters := by
  unfold Obligations.BulkStoreWritesTheRegisters
  intro x s
  refine ⟨decodeWord_of_encodeWord_eq rfl (fmtXB_eq_zero_or 0xF x 0x55), exec_storeRegs_eq_fault, fun h => ?_⟩
  have hnext := exec_storeRegs_eq_next h
  exact ⟨_, hnext, fun _ hk => State.peek_pokeRegs hk rfl, exec_frame hnext⟩

/-! ### Loads (rule R100) -/

theorem exec_loadRegs_eq_fault {x : Reg} {s : State} (h : s.params.memSize ≤ s.baseAddr + x.toNat) :
    exec (.loadRegs x) s = .fault .addressFault :=
  (execLoadRegs_cases x s).elim And.right fun ⟨hlt, _⟩ => absurd hlt (by omega)

theorem exec_loadRegs_eq_next {x : Reg} {s : State} (h : s.baseAddr + x.toNat < s.params.memSize) :
    exec (.loadRegs x) s =
      .next (s.withV (setRegsFrom s.v 0 (s.mem.readBytes s.params s.baseAddr (x.toNat + 1)))) :=
  (execLoadRegs_cases x s).elim (fun ⟨hge, _⟩ => absurd hge (by omega)) And.right

/-- After `n` bytes from `a` are loaded into the registers from `V[0]` upward, `V[k]` is the `k`-th of them. -/
theorem State.getV_loadedRegs {s : State} {a n : Nat} {k : Reg} (hk : k.toNat < n) :
    (s.withV (setRegsFrom s.v 0 (s.mem.readBytes s.params a n))).getV k = s.peek (a + k.toNat) := by
  rw [State.getV_withV, getElem_setRegsFrom, if_pos (Nat.zero_le _), Nat.sub_zero, s.readBytes_getElem?, if_pos hk,
    Option.getD_some]

/-- Settles O30: the load that has room reads the bytes in their order and changes the loaded registers alone. -/
theorem bulkLoadReadsTheRegisters : Obligations.BulkLoadReadsTheRegisters := by
  unfold Obligations.BulkLoadReadsTheRegisters
  intro x s
  refine ⟨decodeWord_of_encodeWord_eq rfl (fmtXB_eq_zero_or 0xF x 0x65), exec_loadRegs_eq_fault, fun h => ?_⟩
  have hnext := exec_loadRegs_eq_next h
  exact ⟨_, hnext, fun _ hk => State.getV_loadedRegs (Nat.lt_succ_of_le hk), exec_frame hnext⟩

/-! ### Writes of the index register (rules R95 to R97) -/

theorem State.getV16_toNat (s : State) (x : Reg) : (s.getV16 x).toNat = (s.getV x).toNat :=
  BitVec.toNat_setWidth_of_le (by decide)

theorem State.lowNibble_toNat (s : State) (x : Reg) : (s.lowNibble x).toNat = (s.getV x).toNat % 16 := by
  rw [State.lowNibble, BitVec.extractLsb'_toNat, Nat.shiftRight_zero]

theorem Params.legal_iff {p : Params} : p.Legal ↔ 0x202 ≤ p.memSize ∧ p.memSize ≤ 65536 ∧
    p.font.length = 16 * p.fontStride ∧ p.fontBase + p.font.length ≤ 0x200 := by
  simp only [Params.Legal, Params.legal, Bool.and_eq_true, decide_eq_true_eq, and_assoc]

/-- Under a legal setting the sixteen glyphs lie below `0x200`, so no glyph address wraps. -/
theorem State.glyphAddr_toNat {s : State} (h : s.params.Legal) (d : Nibble) :
    (s.glyphAddr d).toNat = s.params.fontBase + s.params.fontStride * d.toNat := by
  obtain ⟨-, -, hlen, hend⟩ := Params.legal_iff.mp h
  have hd : s.params.fontStride * d.toNat ≤ s.params.fontStride * 16 := Nat.mul_le_mul_left _ (Nat.le_of_lt d.isLt)
  rw [State.glyphAddr, BitVec.toNat_ofNat, Nat.mod_eq_of_lt (by omega)]

/-- Settles O27: each of the three is one write of `I`. -/
theorem writesOfTheIndexRegister : Obligations.WritesOfTheIndexRegister := by
  unfold Obligations.WritesOfTheIndexRegister
  refine ⟨fun nnn s => ?_, fun x s => ?_, fun x s => ?_⟩
  · exact ⟨decodeWord_of_encodeWord_eq rfl (fmtA_eq_or 0xA nnn), _, rfl, imm12_toNat nnn, onlyChanges_withI s _⟩
  · refine ⟨decodeWord_of_encodeWord_eq rfl (fmtXB_eq_zero_or 0xF x 0x1E), _, rfl, ?_, onlyChanges_withI s _⟩
    rw [State.withI_i, BitVec.toNat_add, State.getV16_toNat]
  · refine ⟨decodeWord_of_encodeWord_eq rfl (fmtXB_eq_zero_or 0xF x 0x29), _, rfl, fun hlegal => ?_,
      onlyChanges_withI s _⟩
    rw [State.withI_i, State.glyphAddr_toNat hlegal, State.lowNibble_toNat]

end Sys2Proof.Machine

/-!
Random (43_random.md): replacing the random input commutes with every instruction but `RND`, said once as one equation
of outcomes, and `RND` itself.
-/

namespace Sys2Proof.Machine

/-! ### The state an outcome carries -/

/-- The outcome with its next state, if there is one, replaced by `f` of it. -/
def mapNext (f : State → State) : Result → Result
  | .next t => .next (f t)
  | .fault k => .fault k
  | .refused k => .refused k

@[simp] theorem mapNext_next (f : State → State) (t : State) : mapNext f (.next t) = .next (f t) := rfl

@[simp] theorem mapNext_fault (f : State → State) (k : Fault) : mapNext f (.fault k) = .fault k := rfl

theorem finish_map (f : State → State) (e : Except Fault State) : finish (e.map f) = mapNext f (finish e) := by
  cases e <;> rfl

/-! ### The operations under another random input (rule R106) -/

theorem State.skipIf_withRnd (s : State) (r : Byte) (c : Bool) :
    (s.withRnd r).skipIf c = (s.skipIf c).withRnd r := by
  cases c <;> rfl

theorem State.push_withRnd (s : State) (r : Byte) (w : Word) :
    (s.withRnd r).push w = (s.push w).map (·.withRnd r) := by
  unfold State.push
  rw [apply_dite (Except.map _)]
  rfl

theorem State.popPc_withRnd (s : State) (r : Byte) : (s.withRnd r).popPc = s.popPc.map (·.withRnd r) := by
  unfold State.popPc
  rw [apply_ite (Except.map _)]
  rfl

theorem State.storeBytes_withRnd (s : State) (r : Byte) (a : Nat) (bs : List Byte) :
    (s.withRnd r).storeBytes a bs = (s.storeBytes a bs).map (·.withRnd r) := by
  unfold State.storeBytes
  rw [apply_ite (Except.map _)]
  rfl

theorem State.loadBytes_withRnd (s : State) (r : Byte) (a n : Nat) :
    (s.withRnd r).loadBytes a n = s.loadBytes a n := rfl

/-! ### The instructions that can fault -/

theorem execCall_withRnd (nnn : Addr12) (s : State) (r : Byte) :
    execCall nnn (s.withRnd r) = mapNext (·.withRnd r) (execCall nnn s) := by
  rw [execCall, execCall, State.withRnd_pc, State.push_withRnd]
  cases s.push s.pc <;> rfl

theorem execRet_withRnd (s : State) (r : Byte) : execRet (s.withRnd r) = mapNext (·.withRnd r) (execRet s) := by
  rw [execRet, State.popPc_withRnd, finish_map, execRet]

theorem execDrw_withRnd (x y : Reg) (n : Nat) (s : State) (r : Byte) :
    execDrw x y n (s.withRnd r) = mapNext (·.withRnd r) (execDrw x y n s) := by
  have hbase : (s.withRnd r).baseAddr = s.baseAddr := rfl
  rw [execDrw, execDrw, hbase, State.loadBytes_withRnd]
  cases s.loadBytes s.baseAddr n <;> rfl

theorem execLdB_withRnd (x : Reg) (s : State) (r : Byte) :
    execLdB x (s.withRnd r) = mapNext (·.withRnd r) (execLdB x s) := by
  rw [execLdB, State.storeBytes_withRnd, finish_map]; rfl

theorem execStoreRegs_withRnd (x : Reg) (s : State) (r : Byte) :
    execStoreRegs x (s.withRnd r) = mapNext (·.withRnd r) (execStoreRegs x s) := by
  rw [execStoreRegs, State.storeBytes_withRnd, finish_map]; rfl

theorem execLoadRegs_withRnd (x : Reg) (s : State) (r : Byte) :
    execLoadRegs x (s.withRnd r) = mapNext (·.withRnd r) (execLoadRegs x s) := by
  have hbase : (s.withRnd r).baseAddr = s.baseAddr := rfl
  rw [execLoadRegs, execLoadRegs, hbase, State.loadBytes_withRnd]
  cases s.loadBytes s.baseAddr (x.toNat + 1) <;> rfl

/-! ### Every instruction -/

/-- An instruction other than `RND` gives under another random input the same outcome, but for that input in its next
state: the operations that test a condition commute by their own lemmas, and the others write one part each. -/
theorem exec_withRnd {i : Instr} (hi : ∀ x nn, i ≠ .rnd x nn) (s : State) (r : Byte) :
    exec i (s.withRnd r) = mapNext (·.withRnd r) (exec i s) := by
  cases i with
  | rnd x nn => exact absurd rfl (hi x nn)
  | call nnn => exact execCall_withRnd nnn s r
  | ret => exact execRet_withRnd s r
  | drw x y n => exact execDrw_withRnd x y n s r
  | ldB x => exact execLdB_withRnd x s r
  | storeRegs x => exact execStoreRegs_withRnd x s r
  | loadRegs x => exact execLoadRegs_withRnd x s r
  | seByte | sneByte | seReg | sneReg | skp | sknp => exact congrArg Host.Outcome.next (s.skipIf_withRnd r _)
  | _ => rfl

/-- Settles O36: the two outcomes differ in the random input alone. -/
theorem onlyRndReadsTheRandomInput : Obligations.OnlyRndReadsTheRandomInput := by
  unfold Obligations.OnlyRndReadsTheRandomInput
  intro i s r hi
  refine ⟨fun t h => ?_, fun k h => ?_⟩
  · rw [exec_withRnd hi, h, mapNext_next]
  · rw [exec_withRnd hi, h, mapNext_fault]

/-- Settles O35: the masked input is one write of `V[x]`. -/
theorem randomByteIsMasked : Obligations.RandomByteIsMasked := by
  unfold Obligations.RandomByteIsMasked
  rintro x nn _ s rfl
  exact ⟨decodeWord_of_encodeWord_eq rfl (fmtXB_eq_or 0xC x nn), _, rfl, s.getV_setV_same x _,
    onlyChanges_setV s x _⟩

end Sys2Proof.Machine

/-!
Timers (44_timers.md): a part of the state that neither the step cycle nor the poll of a key wait touches changes in a
step only through an instruction that writes it; the timers are two such parts.
-/

namespace Sys2Proof.Machine

/-! ### A change in a step is a write of its instruction (rule R54) -/

theorem onlyChanges_withRnd (s : State) (r : Byte) : OnlyChanges (· = .rnd) s (s.withRnd r) := by
  intro p hp
  cases p with
  | rnd => exact absurd rfl hp
  | _ => rfl

/-- Before its instruction runs, a step has advanced `PC` and taken the random input, no more. -/
theorem onlyChanges_ready (s : State) (rnd : Byte) : OnlyChanges (fun p => p = .pc ∨ p = .rnd) s (s.ready rnd) :=
  ((onlyChanges_withPc s _).mono fun _ => .inl).trans ((onlyChanges_withRnd _ rnd).mono fun _ => .inr)

/-- A part that a step changed, and that no poll and no fetch touches, was written by the instruction the step ran. -/
theorem stepWith_mayWrite_of_not_same {rnd : Byte} {s t : State} {p : Part} (h : stepWith rnd s = .next t)
    (hpoll : ¬ (p = .reg s.waitX ∨ p = .pc ∨ p = .wait)) (hready : ¬ (p = .pc ∨ p = .rnd)) (hp : ¬ p.same s t) :
    ∃ op i, s.fetch = .ok op ∧ decodeWord op = .ok i ∧ mayWrite i (s.ready rnd) p := by
  rcases stepWith_next_cases h with ⟨_, rfl⟩ | ⟨_, _, rfl⟩ | ⟨_, _, op, i, hop, hi, he⟩
  · exact absurd (p.same_refl t) hp
  · exact absurd (onlyChanges_pollWait s p hpoll) hp
  · have hfetch : p.same s (s.ready rnd) := onlyChanges_ready s rnd p hready
    have hexec : ¬ p.same (s.ready rnd) t := fun hsame => hp (Part.same_trans hfetch hsame)
    exact ⟨op, i, hop, hi, mayWrite_of_not_same he hexec⟩

/-! ### Writes of the timers (rules R107 to R110) -/

theorem mayWrite_delay_iff (i : Instr) (s : State) : mayWrite i s .delay ↔ ∃ x, i = .ldDtVx x := by
  cases i <;> simp [mayWrite]

theorem mayWrite_sound_iff (i : Instr) (s : State) : mayWrite i s .sound ↔ ∃ x, i = .ldStVx x := by
  cases i <;> simp [mayWrite]

/-- Settles O38: each timer is a part that only its own instruction writes. -/
theorem onlyTimerWritesChangeTimersInAStep : Obligations.OnlyTimerWritesChangeTimersInAStep := by
  unfold Obligations.OnlyTimerWritesChangeTimersInAStep
  intro rnd s t h
  refine ⟨fun hdt => ?_, fun hst => ?_⟩
  · obtain ⟨op, i, hop, hi, hw⟩ := stepWith_mayWrite_of_not_same (p := .delay) h (by simp) (by simp) hdt
    obtain ⟨x, rfl⟩ := (mayWrite_delay_iff i _).mp hw
    exact ⟨op, x, hop, hi⟩
  · obtain ⟨op, i, hop, hi, hw⟩ := stepWith_mayWrite_of_not_same (p := .sound) h (by simp) (by simp) hst
    obtain ⟨x, rfl⟩ := (mayWrite_sound_iff i _).mp hw
    exact ⟨op, x, hop, hi⟩

/-- The output `SoundOn` is 1 exactly while `ST` is not 0 (rule R109). -/
theorem State.soundOn_iff (s : State) : s.soundOn = true ↔ s.st ≠ 0 := by
  rw [State.soundOn, decide_eq_true_iff]
  bv_omega

/-- Settles O37: each of the three is one write, of `V[x]` or of a timer. -/
theorem timerInstructions : Obligations.TimerInstructions := by
  unfold Obligations.TimerInstructions
  intro x s
  exact ⟨⟨decodeWord_of_encodeWord_eq rfl (fmtXB_eq_zero_or 0xF x 0x07), _, rfl, s.getV_setV_same x _,
      onlyChanges_setV s x _⟩,
    ⟨decodeWord_of_encodeWord_eq rfl (fmtXB_eq_zero_or 0xF x 0x15), _, rfl, rfl, onlyChanges_withDt s _⟩,
    decodeWord_of_encodeWord_eq rfl (fmtXB_eq_zero_or 0xF x 0x18), _, rfl, rfl, State.soundOn_iff _,
    onlyChanges_withSt s _⟩

end Sys2Proof.Machine

/-!
Input (45_input.md): the key wait, whose later steps are one poll of the latch each, and the key skips. What a poll does
is said once for a latch with no key down and once for its least key.
-/

namespace Sys2Proof.Machine

/-! ### The poll of a key wait (rules R113, R115) -/

/-- While `WAIT` is 1 a step is one poll, whatever the random input and the word at `PC` (rule R54). -/
theorem stepWith_waiting {s : State} (rnd : Byte) (hf : s.faultKind = none) (hw : s.wait = true) :
    stepWith rnd s = .next s.pollWait := by
  simp [stepWith, hf, hw]

theorem State.pollWait_of_no_key {s : State} (h : ∀ k, s.key k = false) : s.pollWait = s := by
  rw [State.pollWait, s.leastKey_none.mpr h]

/-- The search for the least key finds the key that is down while every lower one is up. -/
theorem State.leastKey_eq_some {s : State} {k : Nibble} (hdown : s.key k = true)
    (hup : ∀ j : Nibble, j.toNat < k.toNat → s.key j = false) : s.leastKey = some k.toNat := by
  cases hn : s.leastKey with
  | none => exact absurd (s.leastKey_none.mp hn k) (by simp [hdown])
  | some n =>
    obtain ⟨hlt, hfound, hlower⟩ := State.leastKey_some hn
    rcases Nat.lt_trichotomy n k.toNat with h | h | h
    · have hj : s.key (BitVec.ofNatLT n hlt) = false := hup _ h
      exact absurd (hfound.symm.trans hj) (by decide)
    · rw [h]
    · exact absurd (hdown.symm.trans (hlower k.toNat h)) (by decide)

/-- A poll that finds the least key down stores it and ends the wait past the instruction. -/
theorem State.pollWait_of_least_key {s : State} {k : Nibble} (hdown : s.key k = true)
    (hup : ∀ j : Nibble, j.toNat < k.toNat → s.key j = false) :
    s.pollWait = ((s.setV s.waitX (k.setWidth 8)).advancePc).withWait false s.waitX := by
  rw [State.pollWait, State.leastKey_eq_some hdown hup, ← BitVec.ofNat_toNat]

/-- A poll neither reads nor writes memory. -/
theorem State.pollWait_withMem (s : State) (m : Memory) : (s.withMem m).pollWait = s.pollWait.withMem m := by
  have hleast : (s.withMem m).leastKey = s.leastKey := rfl
  unfold State.pollWait
  rw [hleast]
  cases s.leastKey <;> rfl

theorem stepWith_waiting_of_no_key {s : State} (rnd : Byte) (hf : s.faultKind = none) (hw : s.wait = true)
    (hk : ∀ k, s.key k = false) : stepWith rnd s = .next s := by
  rw [stepWith_waiting rnd hf hw, State.pollWait_of_no_key hk]

/-! ### `PC` in a key wait (rule R113) -/

theorem State.advancePc_pc_toNat (s : State) : s.advancePc.pc.toNat = (s.pc.toNat + 2) % 65536 :=
  BitVec.toNat_add s.pc 2

theorem State.beginWait_pc_toNat (s : State) (x : Reg) : (s.beginWait x).pc.toNat = (s.pc.toNat + 65534) % 65536 := by
  have hsub : (s.beginWait x).pc.toNat = (65534 + s.pc.toNat) % 65536 := BitVec.toNat_sub s.pc 2
  rw [hsub, Nat.add_comm]

/-! ### The key wait -/

/-- Settles O42: the first step begins the wait, and each later one is the poll of a latch with no key down or with a
least one. -/
theorem keyWaitSpansSteps : Obligations.KeyWaitSpansSteps := by
  unfold Obligations.KeyWaitSpansSteps
  refine ⟨fun x s => ⟨decodeWord_of_encodeWord_eq rfl (fmtXB_eq_zero_or 0xF x 0x0A), _, rfl, rfl, rfl,
    s.beginWait_pc_toNat x, onlyChanges_beginWait s x⟩, fun rnd s hf hw => ?_⟩
  refine ⟨stepWith_waiting_of_no_key rnd hf hw, fun k hdown hup => ?_⟩
  have hstep := stepWith_waiting rnd hf hw
  have hframe := onlyChanges_pollWait s
  rw [State.pollWait_of_least_key hdown hup] at hstep hframe
  have hstored : (k.setWidth 8).toNat = k.toNat := BitVec.toNat_setWidth_of_le (by decide)
  exact ⟨_, hstep, (congrArg BitVec.toNat (s.getV_setV_same s.waitX _)).trans hstored, State.advancePc_pc_toNat _, rfl,
    hframe⟩

/-- Settles O43: the step of a waiting engine is a poll, under any memory. -/
theorem waitingStepIsIdle : Obligations.WaitingStepIsIdle := by
  unfold Obligations.WaitingStepIsIdle
  intro rnd s hf hw
  refine ⟨_, stepWith_waiting rnd hf hw, onlyChanges_pollWait s, fun m => ?_⟩
  rw [stepWith_waiting (s := s.withMem m) rnd hf hw, State.pollWait_withMem]

/-! ### A wait with no key down, over a run (95_test_vectors.md S10) -/

theorem onlyChanges_tick (s : State) : OnlyChanges (fun p => p = .delay ∨ p = .sound) s (event .tick s) :=
  ((onlyChanges_withDt s _).mono fun _ => .inl).trans ((onlyChanges_withSt _ _).mono fun _ => .inr)

theorem event_step_waiting_of_no_key {s : State} (rnd : Byte) (hf : s.faultKind = none) (hw : s.wait = true)
    (hk : ∀ k, s.key k = false) : event (.step rnd) s = s :=
  congrArg (settle s) (stepWith_waiting_of_no_key rnd hf hw hk)

/-- Settles O44, by induction on the events: a tick keeps the wait and the latch, and a step leaves the state as it
was. -/
theorem waitWithoutAKeyNeverAdvances : Obligations.WaitWithoutAKeyNeverAdvances := by
  unfold Obligations.WaitWithoutAKeyNeverAdvances
  intro es
  induction es with
  | nil => exact fun s _ _ _ _ => OnlyChanges.refl _ s
  | cons e es ih =>
    intro s hf hw hk hes
    obtain ⟨he, hrest⟩ := List.forall_mem_cons.mp hes
    rw [runEvents]
    rcases he with rfl | ⟨rnd, rfl⟩
    · exact (onlyChanges_tick s).trans (ih (event .tick s) hf hw hk hrest)
    · rw [event_step_waiting_of_no_key rnd hf hw hk]
      exact ih s hf hw hk hrest

/-! ### Key skips (rules R111, R112, R114) -/

/-- The latch entry of a register's low nibble (decision D14) always exists. -/
theorem State.keys_getElem?_lowNibble (s : State) (x : Reg) :
    s.keys[(s.getV x).toNat % 16]? = some (s.key (s.lowNibble x)) := by
  rw [← s.lowNibble_toNat x]
  exact Vector.getElem?_eq_getElem _

/-- Settles O41: the two skips test one entry of the latch and its negation. -/
theorem keySkipsTestTheLatch : Obligations.KeySkipsTestTheLatch := by
  unfold Obligations.KeySkipsTestTheLatch
  intro x s
  rw [s.keys_getElem?_lowNibble x]
  exact ⟨⟨decodeWord_of_encodeWord_eq rfl (fmtXB_eq_zero_or 0xE x 0x9E), exec_skip rfl (by simp)⟩,
    decodeWord_of_encodeWord_eq rfl (fmtXB_eq_zero_or 0xE x 0xA1), exec_skip rfl (by simp)⟩

end Sys2Proof.Machine

/-!
Display (46_display.md): the picture and the flag a draw leaves, each said once in the terms of rule R116. The second of
two equal draws covers the same pixels, since the first writes neither its coordinates nor the bytes it reads.
-/

namespace Sys2Proof.Machine

/-! ### `CLS` (rule R117) -/

/-- Settles O47: one write of the blank picture. -/
theorem clearBlanksThePicture : Obligations.ClearBlanksThePicture := by
  unfold Obligations.ClearBlanksThePicture
  intro s
  exact ⟨decodeWord_of_encodeWord_eq rfl rfl, _, rfl, Framebuffer.get_blank, onlyChanges_withFb s _⟩

/-! ### What `DRW` leaves (rules R116, R118) -/

theorem flagByte_eq_one_iff (f : Bool) : flagByte f = 1 ↔ f = true := by
  cases f <;> decide

@[simp] theorem State.sprite_length (s : State) (n : Nat) : (s.sprite n).length = n := by
  simp [State.sprite]

/-- The state a completing `DRW` leaves: the new picture, and the collision in VF. -/
def State.drawn (s : State) (x y : Reg) (n : Nat) : State :=
  (s.withFb (drawSprite s.fb (s.getV x) (s.getV y) (s.sprite n)).1).setV 0xF
    (flagByte (drawSprite s.fb (s.getV x) (s.getV y) (s.sprite n)).2)

theorem exec_drw_cases (x y : Reg) (n : Nat) (s : State) :
    (0 < n ∧ s.params.memSize ≤ s.baseAddr + n - 1 ∧ exec (.drw x y n) s = .fault .addressFault) ∨
    ((n = 0 ∨ s.baseAddr + n - 1 < s.params.memSize) ∧ exec (.drw x y n) s = .next (s.drawn x y n)) := by
  rw [State.drawn, ← s.readBytes_eq_sprite n]
  exact execDrw_cases x y n s

theorem exec_drw_eq_fault (x y : Reg) {n : Nat} {s : State} (hn : 0 < n)
    (h : s.params.memSize ≤ s.baseAddr + n - 1) : exec (.drw x y n) s = .fault .addressFault := by
  rcases exec_drw_cases x y n s with ⟨_, _, e⟩ | ⟨hroom, _⟩
  · exact e
  · omega

theorem exec_drw_eq_next (x y : Reg) {n : Nat} {s : State} (h : n = 0 ∨ s.baseAddr + n - 1 < s.params.memSize) :
    exec (.drw x y n) s = .next (s.drawn x y n) := by
  rcases exec_drw_cases x y n s with ⟨_, _, _⟩ | ⟨_, e⟩
  · omega
  · exact e

section
variable {x y : Reg} {n : Nat} {s : State} (hn : n ≤ 15)
include hn

/-- Each pixel of the picture drawn is the old one, inverted when the sprite covers it. -/
theorem State.pixel_drawn (py : Fin 32) (px : Fin 64) : (s.drawn x y n).pixel py px =
    (s.pixel py px ^^ rowsCover (s.getV x) (s.getV y) 0 (s.sprite n) py px) :=
  drawSprite_get s.fb _ _ _ (by rw [State.sprite_length]; omega) py px

theorem State.pixel_drawn_of_covers {py : Fin 32} {px : Fin 64}
    (h : spriteCovers (s.getV x) (s.getV y) (s.sprite n) py px) : (s.drawn x y n).pixel py px = !s.pixel py px := by
  rw [State.pixel_drawn hn, (spriteCovers_iff ..).mp h, Bool.xor_true]

theorem State.pixel_drawn_of_not_covers {py : Fin 32} {px : Fin 64}
    (h : ¬ spriteCovers (s.getV x) (s.getV y) (s.sprite n) py px) : (s.drawn x y n).pixel py px = s.pixel py px := by
  rw [State.pixel_drawn hn, Bool.eq_false_iff.mpr (mt (spriteCovers_iff ..).mpr h), Bool.xor_false]

/-- VF is 1 exactly when a covered pixel was set before the draw. -/
theorem State.getV_drawn_flag_eq_one_iff : (s.drawn x y n).getV 0xF = 1 ↔
    ∃ py px, spriteCovers (s.getV x) (s.getV y) (s.sprite n) py px ∧ s.pixel py px = true := by
  have hlen : (s.sprite n).length ≤ 32 := by rw [State.sprite_length]; omega
  rw [State.drawn, State.getV_setV_same, flagByte_eq_one_iff]
  exact drawSprite_collided s.fb _ _ _ hlen

/-- VF is 0 when every covered pixel was 0 before the draw. -/
theorem State.getV_drawn_flag_eq_zero
    (h : ∀ py px, spriteCovers (s.getV x) (s.getV y) (s.sprite n) py px → s.pixel py px = false) :
    (s.drawn x y n).getV 0xF = 0 := by
  have hflag : (s.drawn x y n).getV 0xF = 0 ∨ (s.drawn x y n).getV 0xF = 1 := by
    rw [State.drawn, State.getV_setV_same]
    exact flagByte_eq_zero_or_one _
  refine hflag.resolve_right fun hone => ?_
  obtain ⟨py, px, hcov, hset⟩ := (State.getV_drawn_flag_eq_one_iff hn).mp hone
  exact absurd hset (by simp [h py px hcov])

end

/-- The word of `DRW` in the rules' own spelling (rule R52). -/
theorem encodeWord_drw (x y : Reg) {n : Nat} (hn : n ≤ 15) : encodeWord (.drw x y n) =
    (0xD000 : Word) ||| x.setWidth 16 <<< 8 ||| y.setWidth 16 <<< 4 ||| BitVec.ofNat 16 n := by
  have hheight : (BitVec.ofNat 4 n).setWidth 16 = BitVec.ofNat 16 n := by
    apply BitVec.eq_of_toNat_eq
    simp; omega
  have hfam : (0xD : Nibble).setWidth 16 <<< 12 = (0xD000 : Word) := rfl
  rw [encodeWord, fmtXYN_eq_or, hheight, hfam]
  ac_rfl

/-- Settles O48: the check of the sprite's range decides between the fault and the state drawn. -/
theorem drawInvertsTheCoveredPixels : Obligations.DrawInvertsTheCoveredPixels := by
  unfold Obligations.DrawInvertsTheCoveredPixels
  intro x y n s hn
  refine ⟨decodeWord_of_encodeWord_eq (decide_eq_true hn) (encodeWord_drw x y hn), exec_drw_eq_fault x y, fun h => ?_⟩
  have hnext := exec_drw_eq_next x y h
  exact ⟨_, hnext, fun _ _ => State.pixel_drawn_of_covers hn, fun _ _ => State.pixel_drawn_of_not_covers hn,
    (State.getV_drawn_flag_eq_one_iff hn).mpr, State.getV_drawn_flag_eq_zero hn, exec_frame hnext⟩

/-! ### The same draw twice (95_test_vectors.md S4) -/

/-- A sprite with a set bit covers a pixel: each coordinate wraps, so every bit falls on the picture. -/
theorem exists_spriteCovers (x0 y0 : Byte) {rows : List Byte} (h : ∃ b ∈ rows, b ≠ 0) :
    ∃ py px, spriteCovers x0 y0 rows py px := by
  obtain ⟨b, hb, hne⟩ := h
  obtain ⟨r, hr⟩ := List.getElem?_of_mem hb
  obtain ⟨k, hk, hbit⟩ : ∃ k, k < 8 ∧ b.getLsbD k = true := by
    by_contra hc
    refine hne (BitVec.eq_of_getLsbD_eq fun k hk => ?_)
    have hclear : b.getLsbD k = false := Bool.eq_false_iff.mpr fun hset => hc ⟨k, hk, hset⟩
    exact hclear.trans BitVec.getLsbD_zero.symm
  have hcol : 7 - (7 - k) = k := by omega
  exact ⟨Fin.ofNat 32 (y0.toNat + r), Fin.ofNat 64 (x0.toNat + (7 - k)), r, 7 - k, b, hr, by omega, by rwa [hcol], rfl,
    rfl⟩

theorem State.getV_drawn_other (s : State) (x y : Reg) (n : Nat) {r : Reg} (hr : r ≠ 0xF) :
    (s.drawn x y n).getV r = s.getV r :=
  State.getV_setV_other _ _ hr

/-- A draw writes no byte of memory and not `I`, so the sprite is the same afterwards. -/
theorem State.sprite_drawn (s : State) (x y : Reg) (n m : Nat) : (s.drawn x y n).sprite m = s.sprite m := rfl

/-- Drawing twice inverts each covered pixel twice. -/
theorem State.pixel_drawn_drawn {x y : Reg} {n : Nat} {s : State} (hn : n ≤ 15) (hx : x ≠ 0xF) (hy : y ≠ 0xF)
    (py : Fin 32) (px : Fin 64) : ((s.drawn x y n).drawn x y n).pixel py px = s.pixel py px := by
  rw [State.pixel_drawn hn, State.getV_drawn_other s x y n hx, State.getV_drawn_other s x y n hy, State.sprite_drawn,
    State.pixel_drawn hn, Bool.xor_assoc, Bool.xor_self, Bool.xor_false]

/-- A draw on a blank place sets the pixels it covers, and the second draw collides with them. -/
theorem State.getV_drawn_drawn_flag {x y : Reg} {n : Nat} {s : State} (hn : n ≤ 15) (hx : x ≠ 0xF) (hy : y ≠ 0xF)
    (hbit : ∃ b ∈ s.sprite n, b ≠ 0)
    (hblank : ∀ py px, spriteCovers (s.getV x) (s.getV y) (s.sprite n) py px → s.pixel py px = false) :
    ((s.drawn x y n).drawn x y n).getV 0xF = 1 := by
  obtain ⟨py, px, hcov⟩ := exists_spriteCovers (s.getV x) (s.getV y) hbit
  rw [State.getV_drawn_flag_eq_one_iff hn, State.getV_drawn_other s x y n hx, State.getV_drawn_other s x y n hy,
    State.sprite_drawn]
  exact ⟨py, px, hcov, by rw [State.pixel_drawn_of_covers hn hcov, hblank py px hcov, Bool.not_false]⟩

/-- Settles O49: `I` and the parameters are as before, so the second draw completes too. -/
theorem drawingTwiceRestoresThePicture : Obligations.DrawingTwiceRestoresThePicture := by
  unfold Obligations.DrawingTwiceRestoresThePicture
  intro x y n s t hn hx hy h
  rcases exec_drw_cases x y n s with ⟨_, _, e⟩ | ⟨hroom, e⟩ <;> cases e.symm.trans h
  exact ⟨_, exec_drw_eq_next x y (s := s.drawn x y n) hroom, State.pixel_drawn_drawn hn hx hy,
    State.getV_drawn_drawn_flag hn hx hy⟩

/-! ### Writes of the picture (rule R119) -/

theorem mayWrite_pixel_iff (i : Instr) (s : State) (y : Fin 32) (x : Fin 64) :
    mayWrite i s (.pixel y x) ↔ i = .cls ∨ ∃ vx vy n, i = .drw vx vy n := by
  cases i <;> simp [mayWrite]

/-- A step that changes a pixel ran one of the two display instructions. -/
theorem stepWith_display_of_pixel_ne {rnd : Byte} {s t : State} {y : Fin 32} {x : Fin 64} (h : stepWith rnd s = .next t)
    (hne : t.pixel y x ≠ s.pixel y x) :
    ∃ op, s.fetch = .ok op ∧ (decodeWord op = .ok .cls ∨ ∃ vx vy n, decodeWord op = .ok (.drw vx vy n)) := by
  obtain ⟨op, i, hop, hi, hw⟩ := stepWith_mayWrite_of_not_same (p := .pixel y x) h (by simp) (by simp) hne
  refine ⟨op, hop, ?_⟩
  rcases (mayWrite_pixel_iff i _ y x).mp hw with rfl | ⟨vx, vy, n, rfl⟩
  · exact .inl hi
  · exact .inr ⟨vx, vy, n, hi⟩

/-- A load writes memory alone, and none at all on a faulted engine (rule R42). -/
theorem loadEvent_pixel {bytes : List Byte} {s t : State} (h : loadEvent bytes s = .next t) (y : Fin 32) (x : Fin 64) :
    t.pixel y x = s.pixel y x := by
  rcases loadEvent_next_cases h with ⟨_, rfl⟩ | ⟨_, rfl⟩ <;> rfl

/-- Settles O50: the picture is a part that only the display instructions write; no event but `Reset` touches it. -/
theorem onlyDisplayInstructionsChangeThePicture : Obligations.OnlyDisplayInstructionsChangeThePicture := by
  unfold Obligations.OnlyDisplayInstructionsChangeThePicture
  intro s t y x
  exact ⟨fun _ => stepWith_display_of_pixel_ne, fun _ h => loadEvent_pixel h y x,
    onlyChanges_tick s (.pixel y x) (by simp), fun _ _ => rfl, event_reset_pixel s y x⟩

end Sys2Proof.Machine

/-!
Exceptions (60_exceptions.md): the outcome of every instruction said once against its stated fault condition, and from it
the order of a step's checks and the faults a step can raise; then the fault latch over a run, and the events `Tick` and
`SetKey`.
-/

namespace Sys2Proof.Machine

/-! ### The outcome of every instruction (rules R122 to R124, R128) -/

/-- An instruction whose one check is `c` faults exactly when `c` holds, and completes otherwise. -/
theorem execFault_cases_of_check {i : Instr} {s : State} {c : Prop} [Decidable c] {k : Fault}
    (hstated : execFault i s = if c then some k else none) (hfault : c → exec i s = .fault k)
    (hnext : ¬ c → ∃ t, exec i s = .next t) :
    (∃ k, execFault i s = some k ∧ exec i s = .fault k) ∨ (execFault i s = none ∧ ∃ t, exec i s = .next t) := by
  by_cases hc : c
  · exact .inl ⟨k, by rw [hstated, if_pos hc], hfault hc⟩
  · exact .inr ⟨by rw [hstated, if_neg hc], hnext hc⟩

/-- An instruction raises its stated fault or, with none stated, completes: six make one check each, and the others none. -/
theorem execFault_cases (i : Instr) (s : State) :
    (∃ k, execFault i s = some k ∧ exec i s = .fault k) ∨ (execFault i s = none ∧ ∃ t, exec i s = .next t) := by
  cases i with
  | call nnn =>
    exact execFault_cases_of_check rfl (exec_call_eq_fault nnn) fun h =>
      ⟨_, exec_call_eq_next nnn (Nat.lt_of_not_le h)⟩
  | ret =>
    exact execFault_cases_of_check rfl exec_ret_eq_fault fun h => ⟨_, exec_ret_eq_next (Nat.pos_of_ne_zero h)⟩
  | drw x y n =>
    refine execFault_cases_of_check rfl (fun ⟨hn, h⟩ => exec_drw_eq_fault x y hn h) fun h => ?_
    have hroom : n = 0 ∨ s.i.toNat + n - 1 < s.params.memSize := by omega
    exact ⟨_, exec_drw_eq_next x y hroom⟩
  | ldB x =>
    exact execFault_cases_of_check rfl exec_ldB_eq_fault fun h => ⟨_, exec_ldB_eq_next (Nat.lt_of_not_le h)⟩
  | storeRegs x =>
    exact execFault_cases_of_check rfl exec_storeRegs_eq_fault fun h =>
      ⟨_, exec_storeRegs_eq_next (Nat.lt_of_not_le h)⟩
  | loadRegs x =>
    exact execFault_cases_of_check rfl exec_loadRegs_eq_fault fun h =>
      ⟨_, exec_loadRegs_eq_next (Nat.lt_of_not_le h)⟩
  | _ => exact .inr ⟨rfl, _, rfl⟩

theorem exec_eq_fault_iff {i : Instr} {s : State} {k : Fault} : exec i s = .fault k ↔ execFault i s = some k := by
  rcases execFault_cases i s with ⟨k', hstated, he⟩ | ⟨hstated, t, he⟩ <;> simp [hstated, he]

theorem exists_exec_eq_next_iff {i : Instr} {s : State} : (∃ t, exec i s = .next t) ↔ execFault i s = none := by
  rcases execFault_cases i s with ⟨k, hstated, he⟩ | ⟨hstated, t, he⟩ <;> simp [hstated, he]

/-- Settles O11: the stated fault and completion exclude each other, and one of them is the outcome. -/
theorem instructionsFaultExactlyWhenStated : Obligations.InstructionsFaultExactlyWhenStated := by
  unfold Obligations.InstructionsFaultExactlyWhenStated
  exact fun i s => ⟨fun k => exec_eq_fault_iff.mpr, exists_exec_eq_next_iff.mpr⟩

/-! ### The checks of a step (rules R54, R125, R128) -/

/-- The step cycle writes nothing that a stated fault depends on, so the state before the step decides it. -/
theorem execFault_ready (i : Instr) (s : State) (rnd : Byte) : execFault i (s.ready rnd) = execFault i s := by
  cases i <;> rfl

theorem stepWith_eq_runInstr {s : State} (rnd : Byte) (hf : s.faultKind = none) (hw : s.wait = false) :
    stepWith rnd s = runInstr rnd s := by
  simp [stepWith, hf, hw]

theorem stepWith_eq_addressFault {s : State} (rnd : Byte) (hf : s.faultKind = none) (hw : s.wait = false)
    (hpc : s.params.memSize ≤ s.pc.toNat + 1) : stepWith rnd s = .fault .addressFault := by
  have hfetch : s.fetch = .error .addressFault := State.memRead16_eq_error hpc
  rw [stepWith_eq_runInstr rnd hf hw, runInstr, hfetch]
  rfl

theorem stepWith_eq_invalidOpcode {s : State} {op : Word} {e : DecodeError} (rnd : Byte) (hf : s.faultKind = none)
    (hw : s.wait = false) (hop : s.fetch = .ok op) (hd : decodeWord op = .error e) :
    stepWith rnd s = .fault .invalidOpcode := by
  simp [stepWith_eq_runInstr rnd hf hw, runInstr, hop, hd, raise]

/-- Settles O10: each check ends the step once those before it have passed. -/
theorem stepChecksFetchThenDecodeThenExecution : Obligations.StepChecksFetchThenDecodeThenExecution := by
  unfold Obligations.StepChecksFetchThenDecodeThenExecution
  intro s rnd hf hw
  refine ⟨stepWith_eq_addressFault rnd hf hw, fun op hop hd => stepWith_eq_invalidOpcode rnd hf hw hop hd,
    fun op i k hop hi hk => ?_⟩
  rw [stepWith_eq_exec rnd hf hw hop hi, exec_eq_fault_iff, execFault_ready, hk]

/-! ### `RomTooLarge` (rule R126) -/

theorem execFault_ne_romTooLarge (i : Instr) (s : State) : execFault i s ≠ some .romTooLarge := by
  cases i <;> simp [execFault]

theorem stepWith_ne_romTooLarge (rnd : Byte) (s : State) : stepWith rnd s ≠ .fault .romTooLarge := by
  intro h
  rcases stepWith_cases rnd s with ⟨_, e⟩ | ⟨_, _, e⟩ | ⟨_, _, e⟩
  · cases e.symm.trans h
  · cases e.symm.trans h
  · rw [e] at h
    rcases runInstr_cases rnd s with ⟨_, e⟩ | ⟨_, _, _, e⟩ | ⟨_, i, _, _, e⟩
    · cases e.symm.trans h
    · cases e.symm.trans h
    · exact execFault_ne_romTooLarge i _ (exec_eq_fault_iff.mp (e.symm.trans h))

theorem loadEvent_eq_romTooLarge_iff {s : State} (bytes : List Byte) (hf : s.faultKind = none) :
    loadEvent bytes s = .fault .romTooLarge ↔ s.params.memSize < 0x200 + bytes.length := by
  refine ⟨fun h => ?_, loadEvent_eq_fault hf⟩
  by_contra hfits
  cases (loadEvent_eq_next hf (Nat.le_of_not_lt hfits)).symm.trans h

/-- Settles O12: the load's own check raises it, and it is the stated fault of no instruction. -/
theorem romTooLargeIsRaisedByLoadAlone : Obligations.RomTooLargeIsRaisedByLoadAlone := by
  unfold Obligations.RomTooLargeIsRaisedByLoadAlone
  exact ⟨fun _ => loadEvent_eq_romTooLarge_iff, fun s rnd => stepWith_ne_romTooLarge rnd s,
    fun s => stepWith_ne_romTooLarge _ s.nextDraw⟩

/-! ### The fault latch (rules R22, R129, R130) -/

theorem event_step (s : State) (rnd : Byte) : event (.step rnd) s = settle s (stepWith rnd s) := rfl

/-- A faulted engine ignores a step (rule R129). -/
theorem event_step_faulted {s : State} {k : Fault} (rnd : Byte) (h : s.faultKind = some k) :
    event (.step rnd) s = s := by
  rw [event_step, stepWith_faulted rnd (Option.isSome_of_eq_some h)]
  rfl

/-- A faulted engine ignores a load (rule R129). -/
theorem event_load_faulted {s : State} {k : Fault} (bytes : List Byte) (h : s.faultKind = some k) :
    event (.load bytes) s = s := by
  rw [event_load, loadEvent_faulted bytes (Option.isSome_of_eq_some h)]
  rfl

/-- No event but `Reset` changes a latched fault. -/
theorem event_keeps_latched {e : Event} {s : State} {k : Fault} (hne : e ≠ .reset) (h : s.faultKind = some k) :
    (event e s).faultKind = some k := by
  cases e with
  | reset => exact absurd rfl hne
  | load bytes => rw [event_load_faulted bytes h, h]
  | step rnd => rw [event_step_faulted rnd h, h]
  | tick | setKey => exact h

/-- A run without `Reset` keeps a latched fault, by induction over its events. -/
theorem runEvents_keeps_latched {es : List Event} {s : State} {k : Fault} (hes : ∀ e ∈ es, e ≠ .reset)
    (h : s.faultKind = some k) : (runEvents es s).faultKind = some k := by
  induction es generalizing s with
  | nil => exact h
  | cons e es ih =>
    obtain ⟨hne, hes'⟩ := List.forall_mem_cons.mp hes
    exact ih hes' (event_keeps_latched hne h)

theorem event_reset_faultCode (s : State) : (event .reset s).faultCode = 0 := rfl

/-- Settles O56: the faulting event latches its kind, which the run keeps. -/
theorem faultStaysLatchedUntilReset : Obligations.FaultStaysLatchedUntilReset := by
  unfold Obligations.FaultStaysLatchedUntilReset
  intro s e k _ hfault
  have hlatch : event e s = s.latchFault k := by
    rcases hfault with ⟨rnd, rfl, h⟩ | ⟨bytes, rfl, h⟩
    · rw [event_step, h]; rfl
    · rw [event_load, h]; rfl
  rw [hlatch]
  refine ⟨s.faultCode_latchFault k, fun es hes => ?_⟩
  have hkept : (runEvents es (s.latchFault k)).faultKind = some k := runEvents_keeps_latched hes rfl
  exact ⟨hkept, fun r => event_step_faulted r hkept, fun b => event_load_faulted b hkept, event_reset_faultCode _⟩

/-! ### `Tick` and `SetKey` (rules R134, R138) -/

/-- Settles O39: the two countdowns, and the frame of the two writes. -/
theorem tickCountsBothTimersDown : Obligations.TickCountsBothTimersDown := by
  unfold Obligations.TickCountsBothTimersDown
  exact fun s => ⟨event_tick_dt_toNat s, event_tick_st_toNat s, onlyChanges_tick s⟩

@[simp] theorem State.key_setKey_same (s : State) (k : Nibble) (v : Bool) : (s.setKey k v).key k = v :=
  Vector.getElem_set_self _

theorem State.key_setKey_other (s : State) {k j : Nibble} (v : Bool) (h : j ≠ k) : (s.setKey k v).key j = s.key j :=
  Vector.getElem_set_ne (Reg.toNat_lt k) _ fun e => h (BitVec.eq_of_toNat_eq e.symm)

theorem onlyChanges_setKey (s : State) (k : Nibble) (v : Bool) : OnlyChanges (· = .key k) s (s.setKey k v) := by
  intro p hp
  cases p with
  | key j => exact s.key_setKey_other v fun e => hp (by rw [e])
  | _ => rfl

/-- Settles O45: one write of the latch, which no key wait sees until its next poll. -/
theorem setKeyWritesOneKey : Obligations.SetKeyWritesOneKey := by
  unfold Obligations.SetKeyWritesOneKey
  exact fun k v s => ⟨s.key_setKey_same k v, onlyChanges_setKey s k v⟩

end Sys2Proof.Machine

/-!
Reset and hazards (70_reset_and_hazards.md): the first fetch after `Reset`, with an image loaded and without one.
-/

namespace Sys2Proof.Machine

/-! ### The first fetch after a load (rule R147) -/

/-- `Reset` leaves no fault latched, so a load that fits copies its image into the reset memory. -/
theorem runEvents_reset_load {s : State} {bytes : List Byte} (h : 0x200 + bytes.length ≤ s.params.memSize) :
    runEvents [.reset, .load bytes] s = (event .reset s).pokeBytes 0x200 bytes := by
  have hload : loadEvent bytes (event .reset s) = .next ((event .reset s).pokeBytes 0x200 bytes) :=
    loadEvent_eq_next rfl h
  rw [runEvents, runEvents, runEvents, event_load, hload]
  rfl

/-- Settles O54: the image is stored where `PC` points, so its first two bytes are the word fetched. -/
theorem firstFetchIsTheFirstLoadedWord : Obligations.FirstFetchIsTheFirstLoadedWord := by
  unfold Obligations.FirstFetchIsTheFirstLoadedWord
  intro s bytes hmem hfits
  have hfetch := State.fetch_pokeBytes (s := event .reset s) (a := 0x200) (bs := bytes) hmem
  rw [runEvents_reset_load hfits]
  refine ⟨_, rfl, rfl, hfetch, ?_⟩
  rintro hi lo rest rfl
  have hhi := (event .reset s).peek_pokeBytes_inside 0x200 (bs := hi :: lo :: rest) (k := 0) (by simp)
  have hlo := (event .reset s).peek_pokeBytes_inside 0x200 (bs := hi :: lo :: rest) (k := 1) (by simp)
  exact hfetch.trans (congrArg Except.ok (congrArg₂ wordOfBytes hhi hlo))

/-! ### A step before any load (rule R148) -/

theorem State.peek_resetWith (p : Params) (a : Nat) : (State.resetWith p).peek a = p.resetByte a := rfl

/-- A legal font ends at or below 0x200, so from there up memory is zero after reset (rules R24, R37). -/
theorem Params.resetByte_of_le {p : Params} {a : Nat} (h : p.Legal) (ha : 0x200 ≤ a) : p.resetByte a = 0 := by
  obtain ⟨-, -, -, hend⟩ := Params.legal_iff.mp h
  exact Params.resetByte_of_not_mem_font fun ⟨_, _, hlt⟩ => by omega

theorem State.fetch_resetWith {p : Params} (h : p.Legal) : (State.resetWith p).fetch = .ok 0 := by
  obtain ⟨hmem, -, -, -⟩ := Params.legal_iff.mp h
  have hfetch : (State.resetWith p).fetch = _ := State.memRead16_eq_ok (s := State.resetWith p) (a := 0x200) hmem
  rw [hfetch, State.peek_resetWith, State.peek_resetWith, Params.resetByte_of_le h le_rfl,
    Params.resetByte_of_le h (by omega)]
  rfl

/-- Settles O55: the word 0x0000 lies above every legal font and is no instruction's. -/
theorem stepWithoutLoadIsInvalidOpcode : Obligations.StepWithoutLoadIsInvalidOpcode := by
  unfold Obligations.StepWithoutLoadIsInvalidOpcode
  intro p rnd h
  have hfetch := State.fetch_resetWith h
  exact ⟨hfetch, stepWith_eq_invalidOpcode rnd rfl rfl hfetch rfl⟩

end Sys2Proof.Machine
